-- ==== Sys2Proof/Word.lean ====
section
/-!
DEFINITION. The word types of spec/00_scope.md R11 and R12: unsigned bit vectors, bit 0 the least significant.
-/
namespace Sys2Proof

/-- `u8` of R11: a register, a memory byte, a timer. -/
abbrev Byte := BitVec 8

/-- `u16` of R11: the instruction word, `pc`, `I`, a stack entry. -/
abbrev Word := BitVec 16

/-- A register number `X` or `Y` (R114), or the row count `N` of DXYN (R113): one nibble. -/
abbrev Nibble := BitVec 4

/-- `ADDR` of R13 and R113: a 12-bit address. -/
abbrev Addr := BitVec 12

end Sys2Proof
end

