-- ==== Sys2Proof/Config.lean ====
section
/-!
DEFINITION. What an implementation fixes (spec/00_scope.md R9, R10) and the free values of R17.
-/
namespace Sys2Proof

/-- `MEM_SIZE` of R9: addresses 0x000 to 0xFFF. -/
abbrev Config.memSize : Nat := 4096

/-- `FONT_BASE` of R9. -/
abbrev Config.fontBase : Nat := 0x050

/-- `PROG_BASE` of R9. -/
abbrev Config.progBase : Nat := 0x200

/-- `PROG_MAX` of R9: 4096 - 0x200. -/
abbrev Config.progMax : Nat := 3584

/-- The default of the parameter `FONT` (R10, R47): glyph d is bytes 5d .. 5d+4, top row first.
PRESUMED (log 1): R47 gives these bytes from general knowledge, not from the source.
`Machine.State.construct` takes any other font. -/
def Config.font : List Byte :=
  [0xF0, 0x90, 0x90, 0x90, 0xF0] ++ [0x20, 0x60, 0x20, 0x20, 0x70] ++
  [0xF0, 0x10, 0xF0, 0x80, 0xF0] ++ [0xF0, 0x10, 0xF0, 0x10, 0xF0] ++
  [0x90, 0x90, 0xF0, 0x10, 0x10] ++ [0xF0, 0x80, 0xF0, 0x10, 0xF0] ++
  [0xF0, 0x80, 0xF0, 0x90, 0xF0] ++ [0xF0, 0x10, 0x20, 0x40, 0x40] ++
  [0xF0, 0x90, 0xF0, 0x90, 0xF0] ++ [0xF0, 0x90, 0xF0, 0x10, 0xF0] ++
  [0xF0, 0x90, 0xF0, 0x90, 0x90] ++ [0xE0, 0x90, 0xE0, 0x90, 0xE0] ++
  [0xF0, 0x80, 0x80, 0x80, 0xF0] ++ [0xE0, 0x90, 0x90, 0x90, 0xE0] ++
  [0xF0, 0x80, 0xF0, 0x80, 0xF0] ++ [0xF0, 0x80, 0xF0, 0x80, 0x80]

/-- `draw rand : u8` of R17 and R182, the k-th draw of the run: a FREE VALUE (log 2). It has no body, so no
proof can see a value of it. -/
opaque Config.randByte : Nat → Byte

/-- The choice behind `draw keysel` of R17 and R263, the k-th draw of the run: a FREE VALUE (log 3).
`Machine.selectKey` turns it into one of the keys that are down. -/
opaque Config.keyChoice : Nat → Nat

end Sys2Proof
end

