-- ==== Sys2Proof/Syntax.lean ====
section
/-!
DEFINITION. The instructions: one constructor per row of spec/opcode_table.json (spec/30_encoding.md R118).
-/
namespace Sys2Proof

/-- The 35 decoder cases of R118, in the table's order. Operands are the fields of R13. -/
inductive Instr where
  /-- 00E0, `CLS` (R231). -/
  | cls
  /-- 00EE, `RET` (R142). -/
  | ret
  /-- 00NN, `SYS` (R141). The field NN is kept although it is ignored. -/
  | sys (nn : Byte)
  /-- 1NNN, `JP` (R143). -/
  | jp (addr : Addr)
  /-- 2NNN, `CALL` (R144). -/
  | call (addr : Addr)
  /-- 3XKK, `SE_VX_KK` (R146). -/
  | seVxKk (x : Nibble) (kk : Byte)
  /-- 4XKK, `SNE_VX_KK` (R147). -/
  | sneVxKk (x : Nibble) (kk : Byte)
  /-- 5XY0, `SE_VX_VY` (R148). -/
  | seVxVy (x y : Nibble)
  /-- 6XKK, `LD_VX_KK` (R171). -/
  | ldVxKk (x : Nibble) (kk : Byte)
  /-- 7XKK, `ADD_VX_KK` (R172). -/
  | addVxKk (x : Nibble) (kk : Byte)
  /-- 8XY0, `LD_VX_VY` (R173). -/
  | ldVxVy (x y : Nibble)
  /-- 8XY1, `OR` (R174). -/
  | orVxVy (x y : Nibble)
  /-- 8XY2, `AND` (R175). -/
  | andVxVy (x y : Nibble)
  /-- 8XY3, `XOR` (R176). -/
  | xorVxVy (x y : Nibble)
  /-- 8XY4, `ADD_VX_VY` (R177). -/
  | addVxVy (x y : Nibble)
  /-- 8XY5, `SUB` (R178). -/
  | subVxVy (x y : Nibble)
  /-- 8XY6, `SHR` (R179). Y is encoded but ignored. -/
  | shrVxVy (x y : Nibble)
  /-- 8XY7, `SUBN` (R180). -/
  | subnVxVy (x y : Nibble)
  /-- 8XYE, `SHL` (R181). Y is encoded but ignored. -/
  | shlVxVy (x y : Nibble)
  /-- 9XY0, `SNE_VX_VY` (R149). -/
  | sneVxVy (x y : Nibble)
  /-- ANNN, `LD_I_NNN` (R200). -/
  | ldINnn (addr : Addr)
  /-- BNNN, `JP_V0_NNN` (R145). -/
  | jpV0Nnn (addr : Addr)
  /-- CXKK, `RND` (R182). -/
  | rnd (x : Nibble) (kk : Byte)
  /-- DXYN, `DRW` (R232). -/
  | drw (x y n : Nibble)
  /-- EX9E, `SKP` (R260). -/
  | skp (x : Nibble)
  /-- EXA1, `SKNP` (R261). -/
  | sknp (x : Nibble)
  /-- FX07, `LD_VX_DT` (R262). -/
  | ldVxDt (x : Nibble)
  /-- FX0A, `LD_VX_K` (R263). -/
  | ldVxK (x : Nibble)
  /-- FX15, `LD_DT_VX` (R264). -/
  | ldDtVx (x : Nibble)
  /-- FX18, `LD_ST_VX` (R265). -/
  | ldStVx (x : Nibble)
  /-- FX1E, `ADD_I_VX` (R201). -/
  | addIVx (x : Nibble)
  /-- FX29, `LD_F_VX` (R202). -/
  | ldFVx (x : Nibble)
  /-- FX33, `LD_B_VX` (R203). -/
  | ldBVx (x : Nibble)
  /-- FX55, `LD_MI_VX` (R204). -/
  | ldMiVx (x : Nibble)
  /-- FX65, `LD_VX_MI` (R205). -/
  | ldVxMi (x : Nibble)
deriving DecidableEq, Repr

end Sys2Proof
end

