-- ==== Sys2Proof/WellFormed.lean ====
section
/-!
DEFINITION. Which terms of `Instr` are instructions of the machine. The field types already bound every operand; the one
check left is the exclusion of spec/30_encoding.md R112 and R118 row 3.
-/
namespace Sys2Proof

/-- `SYS nn` is 0x00NN with NN neither E0 (that word is CLS) nor EE (that word is RET): R118. -/
def Instr.wellFormed : Instr → Bool
  | .sys nn => nn != 0xE0 && nn != 0xEE
  | .cls => true
  | .ret => true
  | .jp _ => true
  | .call _ => true
  | .seVxKk _ _ => true
  | .sneVxKk _ _ => true
  | .seVxVy _ _ => true
  | .ldVxKk _ _ => true
  | .addVxKk _ _ => true
  | .ldVxVy _ _ => true
  | .orVxVy _ _ => true
  | .andVxVy _ _ => true
  | .xorVxVy _ _ => true
  | .addVxVy _ _ => true
  | .subVxVy _ _ => true
  | .shrVxVy _ _ => true
  | .subnVxVy _ _ => true
  | .shlVxVy _ _ => true
  | .sneVxVy _ _ => true
  | .ldINnn _ => true
  | .jpV0Nnn _ => true
  | .rnd _ _ => true
  | .drw _ _ _ => true
  | .skp _ => true
  | .sknp _ => true
  | .ldVxDt _ => true
  | .ldVxK _ => true
  | .ldDtVx _ => true
  | .ldStVx _ => true
  | .addIVx _ => true
  | .ldFVx _ => true
  | .ldBVx _ => true
  | .ldMiVx _ => true
  | .ldVxMi _ => true

end Sys2Proof
end

