-- ==== Sys2Proof/Decode.lean ====
section
/-!
DEFINITION. The decoder of spec/30_encoding.md R115, total on every word and on every byte sequence, and after it the
encoder, both written from the formats of R112 and the opcode map of R118.
-/
namespace Sys2Proof

/-- `zext_16` of R12. -/
abbrev zext16 {n : Nat} (v : BitVec n) : Word := v.setWidth 16

/-- `hi ++ lo` of R84: the word whose bits 15..8 are `hi` and bits 7..0 are `lo`. -/
abbrev bigEndian (hi lo : Byte) : Word := hi ++ lo

/-- What decoding a word gives: an instruction, or the rejection of R119 with the word. -/
inductive DecodeResult where
  | instr (i : Instr)
  | unknownOpcode (word : Word)
deriving DecidableEq, Repr

/-- What decoding the front of a byte sequence gives: an instruction and the bytes after it, or a rejection by name. -/
inductive BytesResult where
  | instr (i : Instr) (rest : List Byte)
  | unknownOpcode (word : Word)
  /-- Fewer than the two bytes every instruction has (R110). -/
  | truncated (bytes : List Byte)
deriving DecidableEq, Repr

/-- `op[15:12]` (R111). -/
def fieldFamily (op : Word) : Nibble := op.extractLsb' 12 4
/-- `X = op[11:8]` (R13). -/
def fieldX (op : Word) : Nibble := op.extractLsb' 8 4
/-- `Y = op[7:4]` (R13). -/
def fieldY (op : Word) : Nibble := op.extractLsb' 4 4
/-- `N = op[3:0]` (R13). -/
def fieldN (op : Word) : Nibble := op.extractLsb' 0 4
/-- `KK = op[7:0]` (R13). -/
def fieldKK (op : Word) : Byte := op.extractLsb' 0 8
/-- `ADDR = op[11:0]` (R13). -/
def fieldADDR (op : Word) : Addr := op.extractLsb' 0 12

/-- Family 0 of R115: CLS, RET, SYS (0x00NN), and nothing with X ≠ 0. -/
def decodeFamily0 (op : Word) : DecodeResult :=
  if op = 0x00E0#16 then .instr .cls
  else if op = 0x00EE#16 then .instr .ret
  else if fieldX op = 0x0#4 then .instr (.sys (fieldKK op))
  else .unknownOpcode op

/-- Family 8 of R115, by `op[3:0]`. -/
def decodeFamily8 (op : Word) : DecodeResult :=
  if fieldN op = 0x0#4 then .instr (.ldVxVy (fieldX op) (fieldY op))
  else if fieldN op = 0x1#4 then .instr (.orVxVy (fieldX op) (fieldY op))
  else if fieldN op = 0x2#4 then .instr (.andVxVy (fieldX op) (fieldY op))
  else if fieldN op = 0x3#4 then .instr (.xorVxVy (fieldX op) (fieldY op))
  else if fieldN op = 0x4#4 then .instr (.addVxVy (fieldX op) (fieldY op))
  else if fieldN op = 0x5#4 then .instr (.subVxVy (fieldX op) (fieldY op))
  else if fieldN op = 0x6#4 then .instr (.shrVxVy (fieldX op) (fieldY op))
  else if fieldN op = 0x7#4 then .instr (.subnVxVy (fieldX op) (fieldY op))
  else if fieldN op = 0xE#4 then .instr (.shlVxVy (fieldX op) (fieldY op))
  else .unknownOpcode op

/-- Family E of R115, by `op[7:0]`. -/
def decodeFamilyE (op : Word) : DecodeResult :=
  if fieldKK op = 0x9E#8 then .instr (.skp (fieldX op))
  else if fieldKK op = 0xA1#8 then .instr (.sknp (fieldX op))
  else .unknownOpcode op

/-- Family F of R115, by `op[7:0]`. -/
def decodeFamilyF (op : Word) : DecodeResult :=
  if fieldKK op = 0x07#8 then .instr (.ldVxDt (fieldX op))
  else if fieldKK op = 0x0A#8 then .instr (.ldVxK (fieldX op))
  else if fieldKK op = 0x15#8 then .instr (.ldDtVx (fieldX op))
  else if fieldKK op = 0x18#8 then .instr (.ldStVx (fieldX op))
  else if fieldKK op = 0x1E#8 then .instr (.addIVx (fieldX op))
  else if fieldKK op = 0x29#8 then .instr (.ldFVx (fieldX op))
  else if fieldKK op = 0x33#8 then .instr (.ldBVx (fieldX op))
  else if fieldKK op = 0x55#8 then .instr (.ldMiVx (fieldX op))
  else if fieldKK op = 0x65#8 then .instr (.ldVxMi (fieldX op))
  else .unknownOpcode op

/-- The decode procedure of R115: dispatch on the family, then on the fixed nibbles; every fixed nibble is compared, and
a word that matches no pattern is rejected (R119). -/
def decode (op : Word) : DecodeResult :=
  if fieldFamily op = 0x0#4 then decodeFamily0 op
  else if fieldFamily op = 0x1#4 then .instr (.jp (fieldADDR op))
  else if fieldFamily op = 0x2#4 then .instr (.call (fieldADDR op))
  else if fieldFamily op = 0x3#4 then .instr (.seVxKk (fieldX op) (fieldKK op))
  else if fieldFamily op = 0x4#4 then .instr (.sneVxKk (fieldX op) (fieldKK op))
  else if fieldFamily op = 0x5#4 then
    if fieldN op = 0x0#4 then .instr (.seVxVy (fieldX op) (fieldY op)) else .unknownOpcode op
  else if fieldFamily op = 0x6#4 then .instr (.ldVxKk (fieldX op) (fieldKK op))
  else if fieldFamily op = 0x7#4 then .instr (.addVxKk (fieldX op) (fieldKK op))
  else if fieldFamily op = 0x8#4 then decodeFamily8 op
  else if fieldFamily op = 0x9#4 then
    if fieldN op = 0x0#4 then .instr (.sneVxVy (fieldX op) (fieldY op)) else .unknownOpcode op
  else if fieldFamily op = 0xA#4 then .instr (.ldINnn (fieldADDR op))
  else if fieldFamily op = 0xB#4 then .instr (.jpV0Nnn (fieldADDR op))
  else if fieldFamily op = 0xC#4 then .instr (.rnd (fieldX op) (fieldKK op))
  else if fieldFamily op = 0xD#4 then .instr (.drw (fieldX op) (fieldY op) (fieldN op))
  else if fieldFamily op = 0xE#4 then decodeFamilyE op
  else decodeFamilyF op

/-- Decoding of a byte sequence: the first two bytes, big-endian (R84, R110). -/
def decodeBytes : List Byte → BytesResult
  | hi :: lo :: rest =>
    match decode (bigEndian hi lo) with
    | .instr i => .instr i rest
    | .unknownOpcode w => .unknownOpcode w
  | short => .truncated short

/-- A field put at bit `lo` of a word whose other bits are 0. -/
def place {n : Nat} (v : BitVec n) (lo : Nat) : Word := zext16 v <<< lo

/-- Format A of R112: family, ADDR. -/
def formA (family : Nibble) (addr : Addr) : Word := place family 12 ||| place addr 0
/-- Format K of R112 (and U, with a fixed byte): family, X, KK. -/
def formK (family x : Nibble) (kk : Byte) : Word := place family 12 ||| place x 8 ||| place kk 0
/-- Format R of R112 (and D, with N free): family, X, Y, low nibble. -/
def formR (family x y n : Nibble) : Word := place family 12 ||| place x 8 ||| place y 4 ||| place n 0

/-- The word of an instruction, from the patterns of R118. Formats Z and S are format K with X = 0. -/
def encode : Instr → Word
  | .cls => formK 0x0 0x0 0xE0
  | .ret => formK 0x0 0x0 0xEE
  | .sys nn => formK 0x0 0x0 nn
  | .jp addr => formA 0x1 addr
  | .call addr => formA 0x2 addr
  | .seVxKk x kk => formK 0x3 x kk
  | .sneVxKk x kk => formK 0x4 x kk
  | .seVxVy x y => formR 0x5 x y 0x0
  | .ldVxKk x kk => formK 0x6 x kk
  | .addVxKk x kk => formK 0x7 x kk
  | .ldVxVy x y => formR 0x8 x y 0x0
  | .orVxVy x y => formR 0x8 x y 0x1
  | .andVxVy x y => formR 0x8 x y 0x2
  | .xorVxVy x y => formR 0x8 x y 0x3
  | .addVxVy x y => formR 0x8 x y 0x4
  | .subVxVy x y => formR 0x8 x y 0x5
  | .shrVxVy x y => formR 0x8 x y 0x6
  | .subnVxVy x y => formR 0x8 x y 0x7
  | .shlVxVy x y => formR 0x8 x y 0xE
  | .sneVxVy x y => formR 0x9 x y 0x0
  | .ldINnn addr => formA 0xA addr
  | .jpV0Nnn addr => formA 0xB addr
  | .rnd x kk => formK 0xC x kk
  | .drw x y n => formR 0xD x y n
  | .skp x => formK 0xE x 0x9E
  | .sknp x => formK 0xE x 0xA1
  | .ldVxDt x => formK 0xF x 0x07
  | .ldVxK x => formK 0xF x 0x0A
  | .ldDtVx x => formK 0xF x 0x15
  | .ldStVx x => formK 0xF x 0x18
  | .addIVx x => formK 0xF x 0x1E
  | .ldFVx x => formK 0xF x 0x29
  | .ldBVx x => formK 0xF x 0x33
  | .ldMiVx x => formK 0xF x 0x55
  | .ldVxMi x => formK 0xF x 0x65

/-- The two bytes of an instruction as they stand in memory, the lower address first (R84, R110). -/
def wordBytes (w : Word) : List Byte := [w.extractLsb' 8 8, w.extractLsb' 0 8]

/-- The bytes of an instruction. -/
def encodeBytes (i : Instr) : List Byte := wordBytes (encode i)

/-- One row of the opcode map of R118: a word belongs to the row if its bits under `mask` are `value`. -/
structure OpcodeRow where
  mask : Word
  value : Word
deriving DecidableEq, Repr

/-- The row of R118 an instruction belongs to. -/
def Instr.row : Instr → OpcodeRow
  | .cls => ⟨0xFFFF, 0x00E0⟩
  | .ret => ⟨0xFFFF, 0x00EE⟩
  | .sys _ => ⟨0xFF00, 0x0000⟩
  | .jp _ => ⟨0xF000, 0x1000⟩
  | .call _ => ⟨0xF000, 0x2000⟩
  | .seVxKk _ _ => ⟨0xF000, 0x3000⟩
  | .sneVxKk _ _ => ⟨0xF000, 0x4000⟩
  | .seVxVy _ _ => ⟨0xF00F, 0x5000⟩
  | .ldVxKk _ _ => ⟨0xF000, 0x6000⟩
  | .addVxKk _ _ => ⟨0xF000, 0x7000⟩
  | .ldVxVy _ _ => ⟨0xF00F, 0x8000⟩
  | .orVxVy _ _ => ⟨0xF00F, 0x8001⟩
  | .andVxVy _ _ => ⟨0xF00F, 0x8002⟩
  | .xorVxVy _ _ => ⟨0xF00F, 0x8003⟩
  | .addVxVy _ _ => ⟨0xF00F, 0x8004⟩
  | .subVxVy _ _ => ⟨0xF00F, 0x8005⟩
  | .shrVxVy _ _ => ⟨0xF00F, 0x8006⟩
  | .subnVxVy _ _ => ⟨0xF00F, 0x8007⟩
  | .shlVxVy _ _ => ⟨0xF00F, 0x800E⟩
  | .sneVxVy _ _ => ⟨0xF00F, 0x9000⟩
  | .ldINnn _ => ⟨0xF000, 0xA000⟩
  | .jpV0Nnn _ => ⟨0xF000, 0xB000⟩
  | .rnd _ _ => ⟨0xF000, 0xC000⟩
  | .drw _ _ _ => ⟨0xF000, 0xD000⟩
  | .skp _ => ⟨0xF0FF, 0xE09E⟩
  | .sknp _ => ⟨0xF0FF, 0xE0A1⟩
  | .ldVxDt _ => ⟨0xF0FF, 0xF007⟩
  | .ldVxK _ => ⟨0xF0FF, 0xF00A⟩
  | .ldDtVx _ => ⟨0xF0FF, 0xF015⟩
  | .ldStVx _ => ⟨0xF0FF, 0xF018⟩
  | .addIVx _ => ⟨0xF0FF, 0xF01E⟩
  | .ldFVx _ => ⟨0xF0FF, 0xF029⟩
  | .ldBVx _ => ⟨0xF0FF, 0xF033⟩
  | .ldMiVx _ => ⟨0xF0FF, 0xF055⟩
  | .ldVxMi _ => ⟨0xF0FF, 0xF065⟩

/-- The opcode map of R118 as a list: its 35 rows in order, one instruction standing for each. -/
def opcodeMap : List OpcodeRow :=
  [.cls, .ret, .sys 0, .jp 0, .call 0, .seVxKk 0 0, .sneVxKk 0 0, .seVxVy 0 0, .ldVxKk 0 0, .addVxKk 0 0,
   .ldVxVy 0 0, .orVxVy 0 0, .andVxVy 0 0, .xorVxVy 0 0, .addVxVy 0 0, .subVxVy 0 0, .shrVxVy 0 0,
   .subnVxVy 0 0, .shlVxVy 0 0, .sneVxVy 0 0, .ldINnn 0, .jpV0Nnn 0, .rnd 0 0, .drw 0 0 0, .skp 0, .sknp 0,
   .ldVxDt 0, .ldVxK 0, .ldDtVx 0, .ldStVx 0, .addIVx 0, .ldFVx 0, .ldBVx 0, .ldMiVx 0, .ldVxMi 0].map Instr.row

/-- The bits `w` of an instruction of `nbits` bits as spec/opcode_table.json numbers them, every higher bit 0. Every
instruction is one word (R110), so bit 0 of the table is bit 0 of the word. -/
def tableWord (nbits w : Nat) : Word := BitVec.ofNat 16 (w % 2 ^ nbits)

/-- What the decoder reads from that instruction, laid out as it is stored. -/
def decodeTableWord (nbits w : Nat) : Option Instr :=
  match decodeBytes (wordBytes (tableWord nbits w)) with
  | .instr i _ => some i
  | .unknownOpcode _ => none
  | .truncated _ => none

end Sys2Proof
end

