-- ==== Sys2Proof/Machine/State.lean ====
section
/-!
DEFINITION. The machine's state (spec/10_state.md R30), the reasons a step can stop, and the state after construction (R52).
-/
namespace Sys2Proof.Machine

/-- The fatal errors of spec/60_exceptions.md R300 that a step can raise, each with its recorded info. `ProgramTooLarge` is
no error of a step (R307): it is an answer of `loadProgram`. -/
inductive FatalError where
  /-- Code 1, with the word (R301). -/
  | unknownOpcode (word : Word)
  /-- Code 2, with the `pc` of the 2NNN (R302). -/
  | stackOverflow (pc : Word)
  /-- Code 3, with the `pc` of the 00EE (R303). -/
  | stackUnderflow (pc : Word)
  /-- Code 4, with the lowest address ≥ 4096 (R305). -/
  | memoryOutOfRange (addr : Nat)
  /-- Code 5, with V[X] (R306). -/
  | keyIndexOutOfRange (v : Byte)
deriving DecidableEq, Repr

/-- Why a step stops the machine. -/
inductive Fault where
  /-- Raised by `step` alone, on a core whose `fault` is already set: the step changes nothing and answers the same fatal
  error again (R309). Taking the fatal error was the NEXT state before (log 5). Safe: no state follows. -/
  | stopped (e : FatalError)
deriving DecidableEq, Repr

/-- Why the model answers with no meaning. No instruction's meaning answers with one of these. -/
inductive Refusal where
  /-- Raised by `exec` for an instruction that has no meaning yet; no arm does. Safe. -/
  | notModelled (mnemonic : String)
  /-- Raised by `Session.transact` alone, for a second LOAD or a LOAD after a STEP (R340, R357). Unsafe only in that it leaves
  out hosts that do so (log 10). -/
  | loadNotAdmitted
  /-- Raised by `Session.transact` alone, for a SET_KEY index above 15, which the port cannot carry (R333). Safe (log 11). -/
  | keyIndexTooWide (index : Nat)
deriving DecidableEq, Repr

/-- Memory as (address, byte) pairs, addresses rising and below 4096, no byte equal to what its address holds after
construction, which is what an unlisted address reads as (`Memory.initial`; log 7). -/
abbrev Memory := List Host.Cell

/-- `FB[y][x]` of R43: 32 rows of 64 pixels, row 0 the top and column 0 the left. -/
abbrev FrameBuffer := Vector (Vector Bool 64) 32

/-- The architectural state: every item of R30, and the model's own draw counter. -/
structure State where
  /-- 4096 bytes (R46, R80). -/
  mem : Memory
  /-- V0..VF (R31); VF is also the flag register (R32). -/
  V : Vector Byte 16
  /-- The index register (R38). -/
  I : Word
  /-- The program counter (R35). -/
  pc : Word
  /-- The return stack (R39). -/
  stack : Vector Word 16
  /-- The number of stack entries in use, 0..16 (R40). -/
  sp : Fin 17
  /-- delay_timer (R42). -/
  DT : Byte
  /-- sound_timer (R42). -/
  ST : Byte
  /-- The framebuffer (R43). -/
  FB : FrameBuffer
  /-- The redraw flag (R44). -/
  redraw : Bool
  /-- The key-down states (R45). -/
  keys : Vector Bool 16
  /-- The opcode latch (R48). -/
  opcode : Word
  /-- The fault status with its recorded info (R49, R304). -/
  fault : Option FatalError
  /-- The MODEL's own: how many draws (R17) have been made; it indexes `Config.randByte` and `Config.keyChoice` (log 4). -/
  draws : Nat
deriving DecidableEq, Repr

/-- The machine right after construction with the default font: R52, R350. Memory lists nothing. -/
def State.reset : State where
  mem := []
  V := Vector.replicate 16 0
  I := 0
  pc := 0x200
  stack := Vector.replicate 16 0
  sp := 0
  DT := 0
  ST := 0
  FB := Vector.replicate 32 (Vector.replicate 64 false)
  redraw := false
  keys := Vector.replicate 16 false
  opcode := 0
  fault := none
  draws := 0

end Sys2Proof.Machine
end

