-- ==== Sys2Proof/Machine/Ops.lean ====
section
/-!
DEFINITION. The named operations over memory and registers, the stack, taking a fatal error, fetching a word, and construction.
There is no return from an exception beside the taking of one: spec/60_exceptions.md R310.
-/
namespace Sys2Proof.Machine

/-- The numeric code of a fatal error (R300). -/
def FatalError.code : FatalError → Nat
  | .unknownOpcode _ => 1
  | .stackOverflow _ => 2
  | .stackUnderflow _ => 3
  | .memoryOutOfRange _ => 4
  | .keyIndexOutOfRange _ => 5

/-- What an address holds after construction with the default font, and what an unlisted address reads as: FONT at
0x050..0x09F, 0 elsewhere (R52). -/
def Memory.initial (a : Nat) : Byte :=
  if Config.fontBase ≤ a then Config.font.getD (a - Config.fontBase) 0 else 0

/-- The byte at an address (R90). -/
def Memory.read : Memory → Nat → Byte
  | [], a => Memory.initial a
  | (b, v) :: m, a => if a = b then v else Memory.read m a

/-- Put a byte into the list, keeping the canonical form: writing what the address holds after construction unlists it. -/
def Memory.insert : Memory → Nat → Byte → Memory
  | [], a, v => if v = Memory.initial a then [] else [(a, v)]
  | (b, w) :: m, a, v =>
    if a < b then if v = Memory.initial a then (b, w) :: m else (a, v) :: (b, w) :: m
    else if a = b then if v = Memory.initial a then m else (a, v) :: m
    else (b, w) :: Memory.insert m a v

/-- Write one byte (R90); an address ≥ 4096 accesses nothing (R86; the meanings raise before they come here). -/
def Memory.write (m : Memory) (a : Nat) (v : Byte) : Memory :=
  if a < Config.memSize then Memory.insert m a v else m

/-- Write bytes to consecutive addresses, lowest first. -/
def Memory.writeBytes : Memory → Nat → List Byte → Memory
  | m, _, [] => m
  | m, a, v :: vs => Memory.writeBytes (Memory.write m a v) (a + 1) vs

/-- Every listed address is at least `lo`, they rise and lie below 4096, and no listed byte is the initial one. -/
def Memory.wfFrom : Nat → Memory → Bool
  | _, [] => true
  | lo, (a, v) :: m => decide (lo ≤ a) && decide (a < Config.memSize) && v != Memory.initial a && Memory.wfFrom (a + 1) m

/-- The canonical form of memory. -/
def Memory.wf (m : Memory) : Bool := Memory.wfFrom 0 m

/-- Fault entry (R304): `fault` is set with its info and nothing else changes. `step` has latched the fetched word already.
Every fatal error is taken here. -/
def raise (e : FatalError) (s : State) : Host.Outcome State Fault Refusal :=
  .next { s with fault := some e }

/-- `MemRead(addr, 1)` of R15: the byte, or `MemoryOutOfRange(addr)` at an address ≥ 4096 (R86). -/
def memRead (s : State) (a : Nat) : Except FatalError Byte :=
  if a < Config.memSize then .ok (s.mem.read a) else .error (.memoryOutOfRange a)

/-- Instruction fetch (R84, R125): two reads, big-endian; `pc + 1` does not wrap. The lower address is checked first (R87). -/
def fetchWord (s : State) : Except FatalError Word :=
  match memRead s s.pc.toNat with
  | .error e => .error e
  | .ok hi =>
    match memRead s (s.pc.toNat + 1) with
    | .error e => .error e
    | .ok lo => .ok (bigEndian hi lo)

/-- `opcode <- w` (R48, R125). -/
def State.latch (s : State) (w : Word) : State := { s with opcode := w }

/-- `V[x]` (R14, R31): no register is hardwired. -/
def State.getV (s : State) (x : Nibble) : Byte := s.V[x.toNat]'x.isLt

/-- `V[x] <- v` (R14, R31). -/
def State.setV (s : State) (x : Nibble) (v : Byte) : State := { s with V := s.V.set x.toNat v x.isLt }

/-- `pc <- target` (R14). -/
def State.jumpTo (s : State) (target : Word) : State := { s with pc := target }

/-- `pc <- pc + 2`, modulo 2^16 (R36, R140). -/
def State.advance (s : State) : State := { s with pc := s.pc + 2 }

/-- `pc <- pc + (cond ? 4 : 2)`, modulo 2^16 (R36; R146 to R149). -/
def State.skipIf (s : State) (cond : Bool) : State := { s with pc := s.pc + if cond then 4 else 2 }

/-- `I <- w` (R38): never masked. -/
def State.setI (s : State) (w : Word) : State := { s with I := w }

/-- Stores to consecutive addresses, after the range check. -/
def State.storeBytes (s : State) (a : Nat) (vs : List Byte) : State := { s with mem := s.mem.writeBytes a vs }

/-- `push` of R41: the check comes before any write. -/
def push (v : Word) (s : State) : Except FatalError State :=
  if h : s.sp.val < 16 then
    .ok { s with stack := s.stack.set s.sp.val v h, sp := ⟨s.sp.val + 1, by omega⟩ }
  else .error (.stackOverflow s.pc)

/-- `pop` of R41: the entry below the pointer, whose slot keeps its value. -/
def pop (s : State) : Except FatalError (Word × State) :=
  if h : 0 < s.sp.val then
    .ok (s.stack[s.sp.val - 1]'(by omega), { s with sp := ⟨s.sp.val - 1, by omega⟩ })
  else .error (.stackUnderflow s.pc)

/-- Construction with any font (R350, R352): the reset state with FONT's bytes from 0x050 on. -/
def State.construct (font : Vector Byte 80) : State :=
  State.reset.storeBytes Config.fontBase font.toList

/-- Place an instruction's word in memory at `pc`, where the next step fetches it. -/
def placeAtPc (s : State) (w : Word) : State := s.storeBytes s.pc.toNat (wordBytes w)

end Sys2Proof.Machine
end

