-- ==== Sys2Proof/Machine/Flags.lean ====
section
/-!
DEFINITION. Every flag computation of spec/10_state.md R34, and the order of the two writes of R170.
-/
namespace Sys2Proof.Machine

/-- VF is register 15 (R32). -/
def VF : Nibble := 0xF

/-- A boolean as a number (R19). -/
def flagByte (b : Bool) : Byte := if b then 1 else 0

/-- The carry of 8XY4 (R177): 1 iff the true sum exceeds 255. -/
def carryFlag (x y : Byte) : Byte := flagByte (decide (x.toNat + y.toNat > 255))

/-- The flag of 8XY5 and 8XY7 (R178, R180): 1 iff the minuend is strictly greater. -/
def greaterFlag (minuend subtrahend : Byte) : Byte := flagByte (decide (minuend.toNat > subtrahend.toNat))

/-- The bit 8XY6 shifts out (R179). -/
def lowBitFlag (x : Byte) : Byte := x &&& 1

/-- The bit 8XYE shifts out (R181). -/
def highBitFlag (x : Byte) : Byte := (x >>> 7) &&& 1

/-- R170: the result to `V[x]`, then the flag to VF. Both are computed from entry values. -/
def State.setResultAndFlag (s : State) (x : Nibble) (result flag : Byte) : State :=
  (s.setV x result).setV VF flag

end Sys2Proof.Machine
end

