-- ==== Sys2Proof/Machine/Alu.lean ====
section
/-!
DEFINITION. The meanings of spec/41_alu.md. None of them can raise an exception, and each ends with `pc <- pc + 2`.
-/
namespace Sys2Proof.Machine

/-- R171. -/
def execLdVxKk (x : Nibble) (kk : Byte) (s : State) : Host.Outcome State Fault Refusal :=
  .next (s.setV x kk).advance

/-- R172: modulo 256, no flag. -/
def execAddVxKk (x : Nibble) (kk : Byte) (s : State) : Host.Outcome State Fault Refusal :=
  .next (s.setV x (s.getV x + kk)).advance

/-- R173. -/
def execLdVxVy (x y : Nibble) (s : State) : Host.Outcome State Fault Refusal :=
  .next (s.setV x (s.getV y)).advance

/-- R174: VF is not reset. -/
def execOrVxVy (x y : Nibble) (s : State) : Host.Outcome State Fault Refusal :=
  .next (s.setV x (s.getV x ||| s.getV y)).advance

/-- R175: VF is not reset. -/
def execAndVxVy (x y : Nibble) (s : State) : Host.Outcome State Fault Refusal :=
  .next (s.setV x (s.getV x &&& s.getV y)).advance

/-- R176: VF is not reset. -/
def execXorVxVy (x y : Nibble) (s : State) : Host.Outcome State Fault Refusal :=
  .next (s.setV x (s.getV x ^^^ s.getV y)).advance

/-- R177: V[X] is the sum modulo 256, then VF the carry. -/
def execAddVxVy (x y : Nibble) (s : State) : Host.Outcome State Fault Refusal :=
  .next (s.setResultAndFlag x (s.getV x + s.getV y) (carryFlag (s.getV x) (s.getV y))).advance

/-- R178: V[X] minus V[Y], then VF = (V[X] > V[Y]), strictly. -/
def execSubVxVy (x y : Nibble) (s : State) : Host.Outcome State Fault Refusal :=
  .next (s.setResultAndFlag x (s.getV x - s.getV y) (greaterFlag (s.getV x) (s.getV y))).advance

/-- R179: logical right shift of V[X] by one; Y is ignored. -/
def execShrVxVy (x _y : Nibble) (s : State) : Host.Outcome State Fault Refusal :=
  .next (s.setResultAndFlag x (s.getV x >>> 1) (lowBitFlag (s.getV x))).advance

/-- R180: V[Y] minus V[X], then VF = (V[Y] > V[X]), strictly. -/
def execSubnVxVy (x y : Nibble) (s : State) : Host.Outcome State Fault Refusal :=
  .next (s.setResultAndFlag x (s.getV y - s.getV x) (greaterFlag (s.getV y) (s.getV x))).advance

/-- R181: left shift of V[X] by one; Y is ignored. -/
def execShlVxVy (x _y : Nibble) (s : State) : Host.Outcome State Fault Refusal :=
  .next (s.setResultAndFlag x (s.getV x <<< 1) (highBitFlag (s.getV x))).advance

/-- R182 for one drawn byte. -/
def rndWith (rand : Byte) (x : Nibble) (kk : Byte) (s : State) : State :=
  { (s.setV x (rand &&& kk)).advance with draws := s.draws + 1 }

/-- R182: the byte is drawn afresh each time, a free value (log 2). -/
def execRnd (x : Nibble) (kk : Byte) (s : State) : Host.Outcome State Fault Refusal :=
  .next (rndWith (Config.randByte s.draws) x kk s)

end Sys2Proof.Machine
end

