-- ==== Sys2Proof/Machine/Operands.lean ====
section
/-!
DEFINITION. The operand forms: the one data addressing mode `I + k` with its range check (spec/20_memory.md R85 to R87), register
ranges, decimal digits, glyph addresses, key indexes and the key drawn by FX0A.
-/
namespace Sys2Proof.Machine

/-- The whole-range check of R87 for the bytes `I + 0 .. I + n - 1`: the lowest address ≥ 4096, if there is one. An empty
range has none. -/
def rangeError (i : Word) (n : Nat) : Option Nat :=
  if n = 0 ∨ i.toNat + n ≤ Config.memSize then none else some (max i.toNat Config.memSize)

/-- How many bytes an instruction accesses from I on (R85). -/
def accessLength : Instr → Nat
  | .cls => 0
  | .ret => 0
  | .sys _ => 0
  | .jp _ => 0
  | .call _ => 0
  | .seVxKk _ _ => 0
  | .sneVxKk _ _ => 0
  | .seVxVy _ _ => 0
  | .ldVxKk _ _ => 0
  | .addVxKk _ _ => 0
  | .ldVxVy _ _ => 0
  | .orVxVy _ _ => 0
  | .andVxVy _ _ => 0
  | .xorVxVy _ _ => 0
  | .addVxVy _ _ => 0
  | .subVxVy _ _ => 0
  | .shrVxVy _ _ => 0
  | .subnVxVy _ _ => 0
  | .shlVxVy _ _ => 0
  | .sneVxVy _ _ => 0
  | .ldINnn _ => 0
  | .jpV0Nnn _ => 0
  | .rnd _ _ => 0
  | .drw _ _ n => n.toNat
  | .skp _ => 0
  | .sknp _ => 0
  | .ldVxDt _ => 0
  | .ldVxK _ => 0
  | .ldDtVx _ => 0
  | .ldStVx _ => 0
  | .addIVx _ => 0
  | .ldFVx _ => 0
  | .ldBVx _ => 3
  | .ldMiVx x => x.toNat + 1
  | .ldVxMi x => x.toNat + 1

/-- Go on only if the bytes `I + 0 .. I + n - 1` all exist; else take `MemoryOutOfRange` (R87). -/
def withRange (n : Nat) (s : State) (body : State) : Host.Outcome State Fault Refusal :=
  match rangeError s.I n with
  | some a => raise (.memoryOutOfRange a) s
  | none => .next body

/-- The bytes `mem[I + 0 .. I + n - 1]` (R85), in order. -/
def State.bytesAtI (s : State) (n : Nat) : List Byte :=
  (List.range n).map fun k => s.mem.read (s.I.toNat + k)

/-- `V[0..X]`, inclusive (R204), in order. -/
def State.regsTo (s : State) (x : Nibble) : List Byte :=
  (List.range (x.toNat + 1)).map fun k => s.getV (BitVec.ofNat 4 k)

/-- `V[k] <- v` for consecutive registers from `k` on (R205). -/
def State.setRegs : State → Nat → List Byte → State
  | s, _, [] => s
  | s, k, v :: vs => State.setRegs (s.setV (BitVec.ofNat 4 k) v) (k + 1) vs

/-- The decimal digits of a byte, hundreds first (R88, R203). -/
def bcdDigits (x : Byte) : List Byte := [x / 100, x / 10 % 10, x % 10]

/-- `0x050 + 5 * x` (R202): x is not masked. -/
def glyphAddress (x : Byte) : Word := 0x050 + 5 * zext16 x

/-- The key a register names, or `KeyIndexOutOfRange` above 15 (R260, R306). -/
def keyIndex (v : Byte) : Except FatalError (Fin 16) :=
  if h : v.toNat < 16 then .ok ⟨v.toNat, h⟩ else .error (.keyIndexOutOfRange v)

/-- The keys that are down, lowest first. -/
def downKeys (keys : Vector Bool 16) : List (Fin 16) :=
  (List.finRange 16).filter fun k => keys[k]

/-- `draw keysel : {k | keys[k]}` of R17 and R263: one of the keys that are down, by a free choice where several are; none
if none is down. -/
def selectKey (choice : Nat) (keys : Vector Bool 16) : Option (Fin 16) :=
  match downKeys keys with
  | [] => none
  | [k] => some k
  | k :: l :: ks => (k :: l :: ks)[choice % (ks.length + 2)]?

end Sys2Proof.Machine
end

