-- ==== Sys2Proof/Machine/Control.lean ====
section
/-!
DEFINITION. The meanings of spec/40_control.md: SYS, RET, JP, CALL, JP V0 and the register skips.
-/
namespace Sys2Proof.Machine

/-- R141: no-op; NN is ignored. -/
def execSys (_nn : Byte) (s : State) : Host.Outcome State Fault Refusal := .next s.advance

/-- R142: `pc` takes the popped value as stored. -/
def execRet (s : State) : Host.Outcome State Fault Refusal :=
  match pop s with
  | .error e => raise e s
  | .ok (target, t) => .next (t.jumpTo target)

/-- R143. -/
def execJp (addr : Addr) (s : State) : Host.Outcome State Fault Refusal := .next (s.jumpTo (zext16 addr))

/-- R144: pushes `pc + 2`. -/
def execCall (addr : Addr) (s : State) : Host.Outcome State Fault Refusal :=
  match push (s.pc + 2) s with
  | .error e => raise e s
  | .ok t => .next (t.jumpTo (zext16 addr))

/-- R145: the offset register is always V0; the sum is not masked. -/
def execJpV0Nnn (addr : Addr) (s : State) : Host.Outcome State Fault Refusal :=
  .next (s.jumpTo (zext16 addr + zext16 (s.getV 0)))

/-- R146. -/
def execSeVxKk (x : Nibble) (kk : Byte) (s : State) : Host.Outcome State Fault Refusal :=
  .next (s.skipIf (s.getV x == kk))

/-- R147. -/
def execSneVxKk (x : Nibble) (kk : Byte) (s : State) : Host.Outcome State Fault Refusal :=
  .next (s.skipIf (s.getV x != kk))

/-- R148. -/
def execSeVxVy (x y : Nibble) (s : State) : Host.Outcome State Fault Refusal :=
  .next (s.skipIf (s.getV x == s.getV y))

/-- R149. -/
def execSneVxVy (x y : Nibble) (s : State) : Host.Outcome State Fault Refusal :=
  .next (s.skipIf (s.getV x != s.getV y))

end Sys2Proof.Machine
end

