-- ==== Sys2Proof/Machine/Display.lean ====
section
/-!
DEFINITION. The meanings of spec/43_display.md, the pixel loop as R232 writes it.
-/
namespace Sys2Proof.Machine

/-- `FB[y][x]` (R14). -/
def FrameBuffer.pixel (fb : FrameBuffer) (x : Fin 64) (y : Fin 32) : Bool := fb[y][x]

/-- `FB[y][x] <- FB[y][x] XOR 1`. -/
def FrameBuffer.toggle (fb : FrameBuffer) (x : Fin 64) (y : Fin 32) : FrameBuffer :=
  fb.set y (fb[y].set x (!fb.pixel x y))

/-- All pixels 0. -/
def FrameBuffer.blank : FrameBuffer := Vector.replicate 32 (Vector.replicate 64 false)

/-- Column `(x0 + c) mod 64` of R230. -/
def wrapX (x0 c : Nat) : Fin 64 := ⟨(x0 + c) % 64, Nat.mod_lt _ (by decide)⟩

/-- Row `(y0 + r) mod 32` of R230. -/
def wrapY (y0 r : Nat) : Fin 32 := ⟨(y0 + r) % 32, Nat.mod_lt _ (by decide)⟩

/-- One pixel under a 1-bit of the sprite: collision test, then XOR (R232). The pair is the framebuffer and VF. -/
def drawPixel (x : Fin 64) (y : Fin 32) (d : FrameBuffer × Byte) : FrameBuffer × Byte :=
  (d.1.toggle x y, if d.1.pixel x y then 1 else d.2)

/-- Row `r` of the sprite: bit `7 - c` of its byte at column `x0 + c` (R230, R232). -/
def drawRow (x0 y0 r : Nat) (row : Byte) (d : FrameBuffer × Byte) : FrameBuffer × Byte :=
  (List.range 8).foldl
    (fun d c => if row.getLsbD (7 - c) then drawPixel (wrapX x0 c) (wrapY y0 r) d else d) d

/-- The sprite's rows from row `r` on (R232). -/
def drawRows (x0 y0 : Nat) : Nat → List Byte → FrameBuffer × Byte → FrameBuffer × Byte
  | _, [], d => d
  | r, row :: rows, d => drawRows x0 y0 (r + 1) rows (drawRow x0 y0 r row d)

/-- R231. -/
def execCls (s : State) : Host.Outcome State Fault Refusal :=
  .next { s with FB := FrameBuffer.blank, redraw := true }.advance

/-- The effect of R232 when every sprite byte exists: coordinates and bytes are entry values. -/
def State.drawSprite (s : State) (x y n : Nibble) : State :=
  let d := drawRows ((s.getV x).toNat % 64) ((s.getV y).toNat % 32) 0 (s.bytesAtI n.toNat) (s.FB, s.getV VF)
  { s.setV VF d.2 with FB := d.1, redraw := true }

/-- R232. -/
def execDrw (x y n : Nibble) (s : State) : Host.Outcome State Fault Refusal :=
  withRange n.toNat s (s.drawSprite x y n).advance

end Sys2Proof.Machine
end

