-- ==== Sys2Proof/Machine/IndexMemory.lean ====
section
/-!
DEFINITION. The meanings of spec/42_index_memory.md. Each ends with `pc <- pc + 2`; none of the stores and loads changes I (R206).
-/
namespace Sys2Proof.Machine

/-- R200. -/
def execLdINnn (addr : Addr) (s : State) : Host.Outcome State Fault Refusal :=
  .next (s.setI (zext16 addr)).advance

/-- R201: modulo 65536, VF unchanged. -/
def execAddIVx (x : Nibble) (s : State) : Host.Outcome State Fault Refusal :=
  .next (s.setI (s.I + zext16 (s.getV x))).advance

/-- R202: x is not reduced to its low nibble. -/
def execLdFVx (x : Nibble) (s : State) : Host.Outcome State Fault Refusal :=
  .next (s.setI (glyphAddress (s.getV x))).advance

/-- R203: three digits at I, I+1, I+2. -/
def execLdBVx (x : Nibble) (s : State) : Host.Outcome State Fault Refusal :=
  withRange 3 s (s.storeBytes s.I.toNat (bcdDigits (s.getV x))).advance

/-- R204: X+1 bytes from I on. -/
def execLdMiVx (x : Nibble) (s : State) : Host.Outcome State Fault Refusal :=
  withRange (x.toNat + 1) s (s.storeBytes s.I.toNat (s.regsTo x)).advance

/-- R205: X+1 bytes from I on. -/
def execLdVxMi (x : Nibble) (s : State) : Host.Outcome State Fault Refusal :=
  withRange (x.toNat + 1) s (s.setRegs 0 (s.bytesAtI (x.toNat + 1))).advance

end Sys2Proof.Machine
end

