-- ==== Sys2Proof/Machine/KeysTimers.lean ====
section
/-!
DEFINITION. The meanings of spec/44_keys_timers.md.
-/
namespace Sys2Proof.Machine

/-- R260: the level is tested and the key state is not changed. -/
def execSkp (x : Nibble) (s : State) : Host.Outcome State Fault Refusal :=
  match keyIndex (s.getV x) with
  | .error e => raise e s
  | .ok k => .next (s.skipIf s.keys[k])

/-- R261. -/
def execSknp (x : Nibble) (s : State) : Host.Outcome State Fault Refusal :=
  match keyIndex (s.getV x) with
  | .error e => raise e s
  | .ok k => .next (s.skipIf (!s.keys[k]))

/-- R262. -/
def execLdVxDt (x : Nibble) (s : State) : Host.Outcome State Fault Refusal :=
  .next (s.setV x s.DT).advance

/-- R263 for one choice among the keys that are down: with none down nothing changes and `pc` stays. -/
def waitKeyWith (choice : Nat) (x : Nibble) (s : State) : State :=
  match selectKey choice s.keys with
  | none => s
  | some k => { (s.setV x (BitVec.ofNat 8 k.val)).advance with draws := s.draws + 1 }

/-- R263: which of the keys that are down is captured is a free value (log 3). -/
def execLdVxK (x : Nibble) (s : State) : Host.Outcome State Fault Refusal :=
  .next (waitKeyWith (Config.keyChoice s.draws) x s)

/-- R264. -/
def execLdDtVx (x : Nibble) (s : State) : Host.Outcome State Fault Refusal :=
  .next { s with DT := s.getV x }.advance

/-- R265. -/
def execLdStVx (x : Nibble) (s : State) : Host.Outcome State Fault Refusal :=
  .next { s with ST := s.getV x }.advance

end Sys2Proof.Machine
end

