-- ==== Sys2Proof/Machine/Fetch.lean ====
section
/-!
DEFINITION. The part of the step before `execute` (spec/30_encoding.md R125), with the priority of spec/60_exceptions.md R308.
-/
namespace Sys2Proof.Machine

/-- What the step finds before it executes an instruction. -/
inductive FetchResult where
  /-- `fault` was already set (R309). -/
  | stopped (e : FatalError)
  /-- A fetch error or an unknown word: the fatal error to take, and the state to take it in. -/
  | error (e : FatalError) (s : State)
  /-- The instruction, and the state with its word latched. -/
  | run (i : Instr) (s : State)
deriving DecidableEq, Repr

/-- R125 up to `execute`: the fault-status check, then the fetch, then the latch, then decode. A fetch error leaves the latch
as it was; an unknown word is latched. -/
def fetchDecode (s : State) : FetchResult :=
  match s.fault with
  | some e => .stopped e
  | none =>
    match fetchWord s with
    | .error e => .error e s
    | .ok w =>
      match decode w with
      | .unknownOpcode op => .error (.unknownOpcode op) (s.latch w)
      | .instr i => .run i (s.latch w)

end Sys2Proof.Machine
end

