-- ==== Sys2Proof/Machine/Step.lean ====
section
/-!
DEFINITION. One step (spec/30_encoding.md R125): exactly one instruction, or a fatal error taken, or nothing on a stopped core.
-/
namespace Sys2Proof.Machine

/-- R125. On a stopped core it answers the same fatal error and gives no next state (R309; log 5). -/
def step (s : State) : Host.Outcome State Fault Refusal :=
  match fetchDecode s with
  | .stopped e => .fault (.stopped e)
  | .error e t => raise e t
  | .run i t => exec i t

/-- `s` with an instruction of `nbits` bits `w` where `step` fetches next: its two bytes at `pc` and `pc + 1`, the high byte
first (R84). Nothing else changes; a core that is not stopped and has `pc` below 0xFFF runs it in its next step (log 8). -/
def State.withFetchWord (s : State) (nbits w : Nat) : State :=
  placeAtPc s (tableWord nbits w)

end Sys2Proof.Machine
end

