-- ==== Sys2Proof/Machine/Ports.lean ====
section
/-!
DEFINITION. The host interface of spec/60_exceptions.md R330 to R340 and the program load of spec/70_reset_and_hazards.md R355 to
R357: each port as an operation on State, and one transaction at a time on the core with the host's one LOAD kept count of.
-/
namespace Sys2Proof.Machine

/-- `tick` of R320: a timer at 0 stays at 0. -/
def tick (t : Byte) : Byte := if t = 0 then 0 else t - 1

/-- TICK60 (R321, R332): both timers at once. -/
def State.tick60 (s : State) : State := { s with DT := tick s.DT, ST := tick s.ST }

/-- SET_KEY (R333): the payload's index is 4 bits. -/
def State.setKey (s : State) (k : Nibble) (pressed : Bool) : State :=
  { s with keys := s.keys.set k.toNat pressed k.isLt }

/-- The answers of LOAD (R307, R355). -/
inductive LoadResult where
  | ok (s : State)
  /-- Code 16 of R300, with the buffer length; nothing is written. -/
  | programTooLarge (length : Nat)
deriving DecidableEq, Repr

/-- `loadProgram` (R355): a byte copy to 0x200 upward, and nothing else. -/
def State.loadProgram (s : State) (bytes : List Byte) : LoadResult :=
  if Config.progMax < bytes.length then .programTooLarge bytes.length
  else .ok (s.storeBytes Config.progBase bytes)

/-- FB_READ (R335): bit `y * 64 + x` is `FB[y][x]`. -/
def State.fbRead (s : State) : Vector Bool 2048 :=
  Vector.ofFn fun i => s.FB.pixel ⟨i.val % 64, by omega⟩ ⟨i.val / 64, by omega⟩

/-- REDRAW_RC (R336): the flag as it was, and the state with it cleared. -/
def State.redrawRC (s : State) : Bool × State := (s.redraw, { s with redraw := false })

/-- DT_WR (R337). -/
def State.dtWr (s : State) (v : Byte) : State := { s with DT := v }

/-- ST_WR (R337). -/
def State.stWr (s : State) (v : Byte) : State := { s with ST := v }

/-- The payload of STATUS (R330, R338). -/
structure Status where
  fault : Option FatalError
  opcode : Word
  pc : Word
  I : Word
  sp : Fin 17
  V : Vector Byte 16
  stack : Vector Word 16
  DT : Byte
  ST : Byte
deriving DecidableEq, Repr

/-- STATUS (R338). -/
def State.status (s : State) : Status where
  fault := s.fault
  opcode := s.opcode
  pc := s.pc
  I := s.I
  sp := s.sp
  V := s.V
  stack := s.stack
  DT := s.DT
  ST := s.ST

/-- The port transactions of R330. SET_KEY's index is a number here so that a wider one can be refused (R333). -/
inductive Transaction where
  | step
  | tick60
  | setKey (index : Nat) (pressed : Bool)
  | load (bytes : List Byte)
  | fbRead
  | redrawRC
  | dtRd
  | dtWr (v : Byte)
  | stRd
  | stWr (v : Byte)
  | status
deriving DecidableEq, Repr

/-- The responses of R330. -/
inductive Response where
  /-- The port has no response. -/
  | none
  | ok
  | fault (e : FatalError)
  | programTooLarge (length : Nat)
  | pixels (bits : Vector Bool 2048)
  | flag (b : Bool)
  | byte (v : Byte)
  | snapshot (st : Status)
deriving DecidableEq, Repr

/-- The numeric code of R300 that a response carries, if it reports an error. -/
def errorCode : Response → Option Nat
  | .fault e => some e.code
  | .programTooLarge _ => some 16
  | .none => none
  | .ok => none
  | .pixels _ => none
  | .flag _ => none
  | .byte _ => none
  | .snapshot _ => none

/-- The core and whether the host may still issue its one LOAD: at most once, before the first STEP (R340, R357). -/
structure Session where
  core : State
  loadOpen : Bool
deriving DecidableEq, Repr

/-- Construction (R350, R352). -/
def Session.start (font : Vector Byte 80) : Session := ⟨State.construct font, true⟩

/-- What a step answers the host (R331): Ok, or the fatal error it took. -/
def stepResponse (s : State) : Response :=
  match s.fault with
  | none => .ok
  | some e => .fault e

/-- STEP (R331): a stopped core answers its fault again and changes nothing (R309). -/
def Session.step (c : Session) : Host.Outcome (Session × Response) Fault Refusal :=
  match Sys2Proof.Machine.step c.core with
  | .next t => .next (⟨t, false⟩, stepResponse t)
  | .fault (.stopped e) => .next (⟨c.core, false⟩, .fault e)
  | .refused r => .refused r

/-- SET_KEY: an index above 15 is refused at the boundary (R333). -/
def Session.setKey (c : Session) (index : Nat) (pressed : Bool) : Host.Outcome (Session × Response) Fault Refusal :=
  if index < 16 then .next ({ c with core := c.core.setKey (BitVec.ofNat 4 index) pressed }, .none)
  else .refused (.keyIndexTooWide index)

/-- LOAD: a second one, or one after a STEP, is no move of the host (R340, R357). -/
def Session.load (c : Session) (bytes : List Byte) : Host.Outcome (Session × Response) Fault Refusal :=
  if c.loadOpen then
    match c.core.loadProgram bytes with
    | .ok t => .next (⟨t, false⟩, .ok)
    | .programTooLarge n => .next (⟨c.core, false⟩, .programTooLarge n)
  else .refused .loadNotAdmitted

/-- One atomic transaction (R330, R339) and its response. -/
def Session.transact (τ : Transaction) (c : Session) : Host.Outcome (Session × Response) Fault Refusal :=
  match τ with
  | .step => c.step
  | .tick60 => .next ({ c with core := c.core.tick60 }, .none)
  | .setKey index pressed => c.setKey index pressed
  | .load bytes => c.load bytes
  | .fbRead => .next (c, .pixels c.core.fbRead)
  | .redrawRC => .next ({ c with core := c.core.redrawRC.2 }, .flag c.core.redrawRC.1)
  | .dtRd => .next (c, .byte c.core.DT)
  | .dtWr v => .next ({ c with core := c.core.dtWr v }, .none)
  | .stRd => .next (c, .byte c.core.ST)
  | .stWr v => .next ({ c with core := c.core.stWr v }, .none)
  | .status => .next (c, .snapshot c.core.status)

/-- An execution (R339): the transactions in the order the host chose, while the model has a move for each. -/
def Session.run : List Transaction → Session → Host.Outcome Session Fault Refusal
  | [], c => .next c
  | τ :: τs, c =>
    match c.transact τ with
    | .next (d, _) => Session.run τs d
    | .fault r => .fault r
    | .refused r => .refused r

end Sys2Proof.Machine
end

