-- ==== Sys2Proof/Safety.lean ====
section
/-!
DEFINITION. What counts as a safe run: stop and idle of spec/70_reset_and_hazards.md R367, and the invariant of the machine.
-/
namespace Sys2Proof.Machine

/-- A run stops here (R367): a bad end. -/
def State.stopped (s : State) : Bool := s.fault.isSome

/-- The instruction the next step would execute, if there is one. -/
def State.nextInstr (s : State) : Option Instr :=
  match fetchDecode s with
  | .run i _ => some i
  | .stopped _ => none
  | .error _ _ => none

/-- A run idles here (R367): not stopped, and the word at `pc` is `1NNN` with NNN = `pc`. -/
def State.idle (s : State) : Bool :=
  match s.nextInstr with
  | some (.jp addr) => zext16 addr == s.pc
  | _ => false

/-- The snapshot explains the fault (R300, R304): what `fault` records is what the preserved state shows of the failing
instruction. -/
def State.faultExplained (s : State) : Prop :=
  match s.fault with
  | none => True
  | some (.unknownOpcode w) => s.opcode = w ∧ decode w = .unknownOpcode w
  | some (.stackOverflow p) => s.pc = p ∧ s.sp = 16 ∧ ∃ addr, decode s.opcode = .instr (.call addr)
  | some (.stackUnderflow p) => s.pc = p ∧ s.sp = 0 ∧ decode s.opcode = .instr .ret
  | some (.memoryOutOfRange a) =>
      (4095 ≤ s.pc.toNat ∧ a = max s.pc.toNat 4096) ∨
      ∃ i, decode s.opcode = .instr i ∧ rangeError s.I (accessLength i) = some a
  | some (.keyIndexOutOfRange v) =>
      15 < v.toNat ∧ ∃ x, s.getV x = v ∧ (decode s.opcode = .instr (.skp x) ∨ decode s.opcode = .instr (.sknp x))

/-- The invariant of the machine: memory is canonical and a fault is explained by its snapshot. -/
def State.Inv (s : State) : Prop := s.mem.wf = true ∧ s.faultExplained

end Sys2Proof.Machine
end

