-- ==== Sys2Proof/Certificates/Slice0/Obligations.lean ====
section
/-!
DEFINITION. The statements for the provers. Those that say what an instruction does give the whole next state, so each is its
own frame; the frames over all instructions stand after them.
-/
namespace Sys2Proof.Claims

open Sys2Proof.Machine

/-- Every word whose bits under `mask` are `value` decodes to the instruction `f` makes of it (R112, R118). -/
def Encoding (mask value : Word) (f : Word → Instr) : Prop :=
  ∀ op : Word, op &&& mask = value → decode op = .instr (f op)

/-- The next step takes the fetch error of R86 and R87 and changes nothing else. -/
def NextFetchFaults (s : State) : Prop :=
  step s = .next { s with fault := some (.memoryOutOfRange (max s.pc.toNat 4096)) }

/-- A 1-bit of the sprite of DXYN lies on pixel (px, py): R230. -/
def covers (s : State) (x y n : Nibble) (px : Fin 64) (py : Fin 32) : Bool :=
  (List.range n.toNat).any fun r => (List.range 8).any fun c =>
    (s.mem.read (s.I.toNat + r)).getLsbD (7 - c) &&
    px.val == ((s.getV x).toNat % 64 + c) % 64 && py.val == ((s.getV y).toNat % 32 + r) % 32

/-- The registers an instruction may write: the table of R33. -/
def mayWriteV : Instr → Nibble → Prop
  | .cls, _ => False
  | .ret, _ => False
  | .sys _, _ => False
  | .jp _, _ => False
  | .call _, _ => False
  | .seVxKk _ _, _ => False
  | .sneVxKk _ _, _ => False
  | .seVxVy _ _, _ => False
  | .ldVxKk x _, r => r = x
  | .addVxKk x _, r => r = x
  | .ldVxVy x _, r => r = x
  | .orVxVy x _, r => r = x
  | .andVxVy x _, r => r = x
  | .xorVxVy x _, r => r = x
  | .addVxVy x _, r => r = x ∨ r = 0xF
  | .subVxVy x _, r => r = x ∨ r = 0xF
  | .shrVxVy x _, r => r = x ∨ r = 0xF
  | .subnVxVy x _, r => r = x ∨ r = 0xF
  | .shlVxVy x _, r => r = x ∨ r = 0xF
  | .sneVxVy _ _, _ => False
  | .ldINnn _, _ => False
  | .jpV0Nnn _, _ => False
  | .rnd x _, r => r = x
  | .drw _ _ _, r => r = 0xF
  | .skp _, _ => False
  | .sknp _, _ => False
  | .ldVxDt x, r => r = x
  | .ldVxK x, r => r = x
  | .ldDtVx _, _ => False
  | .ldStVx _, _ => False
  | .addIVx _, _ => False
  | .ldFVx _, _ => False
  | .ldBVx _, _ => False
  | .ldMiVx _, _ => False
  | .ldVxMi x, r => r.toNat ≤ x.toNat

/-- How many bytes an instruction stores from I on: FX33 three, FX55 X+1, every other none (R85). -/
def storedLength : Instr → Nat
  | .ldBVx _ => 3
  | .ldMiVx x => x.toNat + 1
  | _ => 0

/-- The instructions that set `pc` by a rule of their own: the control transfers of R140, FX0A among them. -/
def setsPcItself (i : Instr) : Prop :=
  i = .ret ∨ (∃ a, i = .jp a) ∨ (∃ a, i = .call a) ∨ (∃ a, i = .jpV0Nnn a) ∨
  (∃ x kk, i = .seVxKk x kk) ∨ (∃ x kk, i = .sneVxKk x kk) ∨ (∃ x y, i = .seVxVy x y) ∨ (∃ x y, i = .sneVxVy x y) ∨
  (∃ x, i = .skp x) ∨ (∃ x, i = .sknp x) ∨ ∃ x, i = .ldVxK x

/-- The words R119 lists, by their fields. -/
def unlisted (op : Word) : Prop :=
  (fieldFamily op = 0x0 ∧ fieldX op ≠ 0x0) ∨
  (fieldFamily op = 0x5 ∧ fieldN op ≠ 0x0) ∨
  (fieldFamily op = 0x8 ∧ fieldN op ∈ ([0x8, 0x9, 0xA, 0xB, 0xC, 0xD, 0xF] : List Nibble)) ∨
  (fieldFamily op = 0x9 ∧ fieldN op ≠ 0x0) ∨
  (fieldFamily op = 0xE ∧ fieldKK op ≠ 0x9E ∧ fieldKK op ≠ 0xA1) ∨
  (fieldFamily op = 0xF ∧ fieldKK op ∉ ([0x07, 0x0A, 0x15, 0x18, 0x1E, 0x29, 0x33, 0x55, 0x65] : List Byte))

end Sys2Proof.Claims

open Sys2Proof Sys2Proof.Machine Sys2Proof.Claims

/-! ### Encoding -/

/-- Decode of encode is the identity on every well-formed instruction, at every operand (R112, R115, R118). -/
def Obligations.DecodeInvertsEncode : Prop :=
  ∀ i : Instr, i.wellFormed = true → decode (encode i) = .instr i

/-- What a word decodes to is well-formed and encodes to that word: no bit of a word is dropped (R112, R115, R116). -/
def Obligations.EncodeInvertsDecode : Prop :=
  ∀ (op : Word) (i : Instr), decode op = .instr i → i.wellFormed = true ∧ encode i = op

/-- Decode is total and follows the opcode map of R118: an instruction whose row the word matches, or the rejection and no row
matches. Which words match no row is the spec's own choice (decision D1; log 16). -/
def Obligations.EveryWordIsOneRowOrUnknown : Prop :=
  ∀ op : Word,
    (∃ i, decode op = .instr i ∧ i.row ∈ opcodeMap ∧ op &&& i.row.mask = i.row.value) ∨
    (decode op = .unknownOpcode op ∧ ∀ r ∈ opcodeMap, op &&& r.mask ≠ r.value)

/-- The unknown words are exactly those R119 lists, and a step at one raises UnknownOpcode with the word latched and nothing else
changed (R301, R304; decisions D1 and D8; logs 5 and 16). -/
def Obligations.UnlistedWordsRaiseUnknownOpcode : Prop :=
  (∀ op : Word, decode op = .unknownOpcode op ↔ unlisted op) ∧
  ∀ (s : State) (op : Word), s.fault = none → s.pc.toNat < 4095 →
    op = bigEndian (s.mem.read s.pc.toNat) (s.mem.read (s.pc.toNat + 1)) → unlisted op →
    step s = .next { s with opcode := op, fault := some (.unknownOpcode op) }

/-- One word of each format, written out from R112 and R118, decodes to its instruction; three unlisted words are rejected. -/
def Obligations.SampleWordsDecode : Prop :=
  decode 0b0000000011100000#16 = .instr .cls ∧
  decode 0b0000000000000000#16 = .instr (.sys 0x00) ∧
  decode 0b0001001000000100#16 = .instr (.jp 0x204) ∧
  decode 0b0110101010011100#16 = .instr (.ldVxKk 0xA 0x9C) ∧
  decode 0b1000000100101110#16 = .instr (.shlVxVy 0x1 0x2) ∧
  decode 0b1101000100100101#16 = .instr (.drw 0x1 0x2 0x5) ∧
  decode 0b1110011110011110#16 = .instr (.skp 0x7) ∧
  decode 0b1111001001100101#16 = .instr (.ldVxMi 0x2) ∧
  decode 0b0000000111100000#16 = .unknownOpcode 0x01E0 ∧
  decode 0b0101000100100001#16 = .unknownOpcode 0x5121 ∧
  decode 0b1000000000011000#16 = .unknownOpcode 0x8018

/-! ### The step -/

/-- A step runs the decoded instruction: with no fault, `pc` below 0xFFF and the two bytes there decoding to `i`, the step is
`exec i` on the state with the word latched (R125; the sticky check and the latch are decisions D8 and D29). -/
def Obligations.StepRunsTheDecodedInstruction : Prop :=
  ∀ (s : State) (i : Instr), s.fault = none → s.pc.toNat < 4095 →
    decode (bigEndian (s.mem.read s.pc.toNat) (s.mem.read (s.pc.toNat + 1))) = .instr i →
    step s = exec i { s with opcode := bigEndian (s.mem.read s.pc.toNat) (s.mem.read (s.pc.toNat + 1)) }

/-- The errors of a step in the order of R308 and the exact error of a fetch (R86, R87, R305), each before any other effect; fault
entry is a next state and the stopped core a fault (decisions D2, D8, D25; log 5). -/
def Obligations.StepErrorsComeInOrder : Prop :=
  ∀ s : State,
    (∀ e, s.fault = some e → step s = .fault (.stopped e)) ∧
    (s.fault = none → 4096 ≤ s.pc.toNat → step s = .next { s with fault := some (.memoryOutOfRange s.pc.toNat) }) ∧
    (s.fault = none → s.pc.toNat = 4095 → step s = .next { s with fault := some (.memoryOutOfRange 4096) }) ∧
    (s.fault = none → s.pc.toNat < 4095 → ∀ w, w = bigEndian (s.mem.read s.pc.toNat) (s.mem.read (s.pc.toNat + 1)) →
      decode w = .unknownOpcode w → step s = .next { s with opcode := w, fault := some (.unknownOpcode w) })

/-- Errors are precise (R304): a step that takes a fatal error changes `fault` and the opcode latch alone, and the latch holds the
word at `pc`, or its old value where the fetch itself failed (decision D8; log 5). -/
def Obligations.FatalErrorsArePrecise : Prop :=
  ∀ (s t : State) (e : FatalError), s.fault = none → step s = .next t → t.fault = some e →
    t = { s with fault := some e, opcode := t.opcode } ∧
    (s.pc.toNat < 4095 → t.opcode = bigEndian (s.mem.read s.pc.toNat) (s.mem.read (s.pc.toNat + 1))) ∧
    (4095 ≤ s.pc.toNat → t.opcode = s.opcode)

/-- Each instruction raises its own kind of error, with the info of R300, and no other (R300, R308; decisions D2, D5, D9,
D25). That taking it is a next state is log 5. -/
def Obligations.EachInstructionRaisesItsOwnError : Prop :=
  ∀ (i : Instr) (s t : State) (e : FatalError), s.fault = none → exec i s = .next t → t.fault = some e →
    ((∃ a, i = .call a) ∧ s.sp = 16 ∧ e = .stackOverflow s.pc) ∨
    (i = .ret ∧ s.sp = 0 ∧ e = .stackUnderflow s.pc) ∨
    (((∃ x y n, i = .drw x y n) ∨ (∃ x, i = .ldBVx x) ∨ (∃ x, i = .ldMiVx x) ∨ ∃ x, i = .ldVxMi x) ∧
      accessLength i ≠ 0 ∧ 4096 < s.I.toNat + accessLength i ∧ e = .memoryOutOfRange (max s.I.toNat 4096)) ∨
    ∃ x, (i = .skp x ∨ i = .sknp x) ∧ 15 < (s.getV x).toNat ∧ e = .keyIndexOutOfRange (s.getV x)

/-- A stopped core stays stopped (R309, R340): a STEP changes no state and answers the same fault; no transaction clears the fault;
every port but STEP, LOAD and an inexpressible SET_KEY still answers (decisions D8 and D27; logs 5 and 10). -/
def Obligations.StoppedCoreStaysStopped : Prop :=
  ∀ (c : Session) (e : FatalError), c.core.fault = some e →
    c.transact .step = .next (⟨c.core, false⟩, .fault e) ∧
    (∀ (τ : Transaction) (d : Session) (r : Response), c.transact τ = .next (d, r) → d.core.fault = some e) ∧
    ∀ τ : Transaction, (∀ b, τ ≠ .load b) → (∀ k b, τ = .setKey k b → k ≤ 15) → ∃ d r, c.transact τ = .next (d, r)

/-! ### Invariants -/

/-- Every step keeps the invariant: memory stays canonical, and a fault is explained by the snapshot the core preserves (R300, R304;
the snapshot is decision D8; logs 5 and 7). -/
def Obligations.EveryStepKeepsTheInvariant : Prop :=
  ∀ s t : State, s.Inv → step s = .next t → t.Inv

/-- The reset state meets the invariant. -/
def Obligations.ResetMeetsTheInvariant : Prop := State.reset.Inv

/-- Every run of transactions, in every order the host may choose (R339), keeps the invariant. -/
def Obligations.EveryRunKeepsTheInvariant : Prop :=
  ∀ (τs : List Transaction) (c d : Session), c.core.Inv → c.run τs = .next d → d.core.Inv

/-- The state after construction, for every FONT: the table of R52. That redraw, keys, opcode and stack are zero R52 reads from "fully
zeroed" (log 23); `draws` is the model's own and not named here. -/
def Obligations.ConstructionGivesTheResetTable : Prop :=
  ∀ font : Vector Byte 80,
    (∀ a, a < 0x050 → (State.construct font).mem.read a = 0) ∧
    (∀ k : Fin 80, (State.construct font).mem.read (0x050 + k.val) = font[k]) ∧
    (∀ a, 0x0A0 ≤ a → a < 4096 → (State.construct font).mem.read a = 0) ∧
    (∀ x, (State.construct font).getV x = 0) ∧ (State.construct font).I = 0 ∧ (State.construct font).pc = 0x200 ∧
    (∀ k : Fin 16, (State.construct font).stack[k] = 0) ∧ (State.construct font).sp = 0 ∧
    (State.construct font).DT = 0 ∧ (State.construct font).ST = 0 ∧
    (∀ x y, (State.construct font).FB.pixel x y = false) ∧ (State.construct font).redraw = false ∧
    (∀ k : Fin 16, (State.construct font).keys[k] = false) ∧ (State.construct font).opcode = 0 ∧
    (State.construct font).fault = none

/-- `State.reset` reads as the machine constructed with the default FONT does (R52, R352; decision D13; log 1). -/
def Obligations.ResetIsConstructionWithTheDefaultFont : Prop :=
  State.construct ⟨Config.font.toArray, rfl⟩ = State.reset

/-! ### Control transfer -/

/-- R141. -/
def Obligations.SysOnlyAdvances : Prop :=
  (∀ op : Word, op &&& 0xFF00 = 0x0000 → op ≠ 0x00E0 → op ≠ 0x00EE → decode op = .instr (.sys (fieldKK op))) ∧
  (∀ op : Word, fieldFamily op = 0 → fieldX op ≠ 0 → decode op = .unknownOpcode op) ∧
  ∀ (nn : Byte) (s : State), exec (.sys nn) s = .next { s with pc := s.pc + 2 }

/-- R142 and R303: the entry below the pointer, and StackUnderflow on an empty stack. That the error is taken in a next state with
`fault` set is the model's choice (decision D8; log 5). -/
def Obligations.RetPopsOrUnderflows : Prop :=
  decode 0x00EE = .instr .ret ∧
  (∀ (s : State) (k : Fin 16), s.sp = k.succ →
    exec .ret s = .next { s with sp := k.castSucc, pc := s.stack[k] }) ∧
  (∀ s : State, s.sp = 0 → exec .ret s = .next { s with fault := some (.stackUnderflow s.pc) }) ∧
  ∀ font : Vector Byte 80,
    exec .ret (State.construct font) = .next { State.construct font with fault := some (.stackUnderflow 0x200) }

/-- R143, and the fetch error of a target it cannot fetch from (decision D2), taken in a next state with `fault` set, which is the
model's choice (decision D8; log 5). -/
def Obligations.JpSetsPc : Prop :=
  Encoding 0xF000 0x1000 (fun op => .jp (fieldADDR op)) ∧
  (∀ (addr : Addr) (s : State), exec (.jp addr) s = .next { s with pc := zext16 addr }) ∧
  ∀ (addr : Addr) (s : State), s.fault = none → 0xFFF ≤ addr.toNat →
    addr = 0xFFF ∧ step { s with pc := zext16 addr } =
      .next { s with pc := zext16 addr, fault := some (.memoryOutOfRange 0x1000) }

/-- R144 and R302: `pc + 2` is pushed; at depth 16 StackOverflow and nothing else. That the error is taken in a next state with `fault`
set is the model's choice (decision D8; log 5). -/
def Obligations.CallPushesOrOverflows : Prop :=
  Encoding 0xF000 0x2000 (fun op => .call (fieldADDR op)) ∧
  (∀ (addr : Addr) (s : State) (k : Fin 16), s.sp = k.castSucc →
    exec (.call addr) s =
      .next { s with stack := s.stack.set k.val (s.pc + 2) k.isLt, sp := k.succ, pc := zext16 addr }) ∧
  ∀ (addr : Addr) (s : State), s.sp = 16 →
    exec (.call addr) s = .next { s with fault := some (.stackOverflow s.pc) }

/-- R145, and the fetch error of R86 and R87 at a sum of 0x0FFF or above (decision D2), taken in a next state with `fault` set, which is
the model's choice (decision D8; log 5). -/
def Obligations.JpV0AddsV0 : Prop :=
  Encoding 0xF000 0xB000 (fun op => .jpV0Nnn (fieldADDR op)) ∧
  (∀ (addr : Addr) (s : State), exec (.jpV0Nnn addr) s = .next { s with pc := zext16 addr + zext16 (s.getV 0) }) ∧
  (∀ (addr : Addr) (v : Byte), (zext16 addr + zext16 v : Word).toNat = addr.toNat + v.toNat) ∧
  ∀ (addr : Addr) (s : State), s.fault = none → 0x0FFF ≤ addr.toNat + (s.getV 0).toNat →
    NextFetchFaults { s with pc := zext16 addr + zext16 (s.getV 0) }

/-- R146 and R147, and the fetch error after a skip from 0xFFC (decision D2), taken in a next state with `fault` set, which is the model's
choice (decision D8; log 5). -/
def Obligations.SkipsOnAnImmediate : Prop :=
  Encoding 0xF000 0x3000 (fun op => .seVxKk (fieldX op) (fieldKK op)) ∧
  Encoding 0xF000 0x4000 (fun op => .sneVxKk (fieldX op) (fieldKK op)) ∧
  (∀ (x : Nibble) (kk : Byte) (s : State),
    exec (.seVxKk x kk) s = .next { s with pc := s.pc + if s.getV x = kk then 4 else 2 }) ∧
  (∀ (x : Nibble) (kk : Byte) (s : State),
    exec (.sneVxKk x kk) s = .next { s with pc := s.pc + if s.getV x ≠ kk then 4 else 2 }) ∧
  ∀ s : State, s.fault = none → s.pc = 0xFFC → (s.pc + 4).toNat = 0x1000 ∧ NextFetchFaults { s with pc := s.pc + 4 }

/-- R148 and R149. -/
def Obligations.SkipsOnRegisters : Prop :=
  Encoding 0xF00F 0x5000 (fun op => .seVxVy (fieldX op) (fieldY op)) ∧
  Encoding 0xF00F 0x9000 (fun op => .sneVxVy (fieldX op) (fieldY op)) ∧
  (∀ op : Word, fieldFamily op = 5 ∨ fieldFamily op = 9 → fieldN op ≠ 0 → decode op = .unknownOpcode op) ∧
  (∀ (x y : Nibble) (s : State),
    exec (.seVxVy x y) s = .next { s with pc := s.pc + if s.getV x = s.getV y then 4 else 2 }) ∧
  ∀ (x y : Nibble) (s : State),
    exec (.sneVxVy x y) s = .next { s with pc := s.pc + if s.getV x ≠ s.getV y then 4 else 2 }

/-! ### Register and ALU instructions -/

/-- R171 and R173. -/
def Obligations.LoadsOfAByteAndOfARegister : Prop :=
  Encoding 0xF000 0x6000 (fun op => .ldVxKk (fieldX op) (fieldKK op)) ∧
  Encoding 0xF00F 0x8000 (fun op => .ldVxVy (fieldX op) (fieldY op)) ∧
  (∀ (x : Nibble) (kk : Byte) (s : State),
    exec (.ldVxKk x kk) s = .next { s with V := s.V.set x.toNat kk x.isLt, pc := s.pc + 2 }) ∧
  ∀ (x y : Nibble) (s : State),
    exec (.ldVxVy x y) s = .next { s with V := s.V.set x.toNat (s.getV y) x.isLt, pc := s.pc + 2 }

/-- R172: modulo 256, and no flag. -/
def Obligations.AddImmediateSetsNoFlag : Prop :=
  Encoding 0xF000 0x7000 (fun op => .addVxKk (fieldX op) (fieldKK op)) ∧
  ∀ (x : Nibble) (kk : Byte) (s : State),
    exec (.addVxKk x kk) s = .next { s with
      V := s.V.set x.toNat (BitVec.ofNat 8 (((s.getV x).toNat + kk.toNat) % 256)) x.isLt, pc := s.pc + 2 }

/-- R174, R175 and R176: bit by bit, and no flag. -/
def Obligations.LogicSetsNoFlag : Prop :=
  Encoding 0xF00F 0x8001 (fun op => .orVxVy (fieldX op) (fieldY op)) ∧
  Encoding 0xF00F 0x8002 (fun op => .andVxVy (fieldX op) (fieldY op)) ∧
  Encoding 0xF00F 0x8003 (fun op => .xorVxVy (fieldX op) (fieldY op)) ∧
  (∀ (x y : Nibble) (s : State), exec (.orVxVy x y) s =
    .next { s with V := s.V.set x.toNat (s.getV x ||| s.getV y) x.isLt, pc := s.pc + 2 }) ∧
  (∀ (x y : Nibble) (s : State), exec (.andVxVy x y) s =
    .next { s with V := s.V.set x.toNat (s.getV x &&& s.getV y) x.isLt, pc := s.pc + 2 }) ∧
  ∀ (x y : Nibble) (s : State), exec (.xorVxVy x y) s =
    .next { s with V := s.V.set x.toNat (s.getV x ^^^ s.getV y) x.isLt, pc := s.pc + 2 }

/-- R177: the sum modulo 256 to V[X], then the carry to VF, so that VF ends as the carry also when X = F. -/
def Obligations.AddRegistersSetsCarry : Prop :=
  Encoding 0xF00F 0x8004 (fun op => .addVxVy (fieldX op) (fieldY op)) ∧
  ∀ (x y : Nibble) (s : State), exec (.addVxVy x y) s = .next { s with
    V := (s.V.set x.toNat (BitVec.ofNat 8 (((s.getV x).toNat + (s.getV y).toNat) % 256)) x.isLt).set 15
      (if 255 < (s.getV x).toNat + (s.getV y).toNat then 1 else 0),
    pc := s.pc + 2 }

/-- R178 and R180: the difference modulo 256 to V[X], then "strictly greater" to VF, 0 at equality. -/
def Obligations.SubtractionsFlagStrictlyGreater : Prop :=
  Encoding 0xF00F 0x8005 (fun op => .subVxVy (fieldX op) (fieldY op)) ∧
  Encoding 0xF00F 0x8007 (fun op => .subnVxVy (fieldX op) (fieldY op)) ∧
  (∀ (x y : Nibble) (s : State), exec (.subVxVy x y) s = .next { s with
    V := (s.V.set x.toNat (BitVec.ofNat 8 ((256 + (s.getV x).toNat - (s.getV y).toNat) % 256)) x.isLt).set 15
      (if (s.getV y).toNat < (s.getV x).toNat then 1 else 0),
    pc := s.pc + 2 }) ∧
  ∀ (x y : Nibble) (s : State), exec (.subnVxVy x y) s = .next { s with
    V := (s.V.set x.toNat (BitVec.ofNat 8 ((256 + (s.getV y).toNat - (s.getV x).toNat) % 256)) x.isLt).set 15
      (if (s.getV x).toNat < (s.getV y).toNat then 1 else 0),
    pc := s.pc + 2 }

/-- R179 and R181: a shift of V[X] by one whatever Y is, then the bit shifted out to VF. -/
def Obligations.ShiftsByOneFlagTheLostBit : Prop :=
  Encoding 0xF00F 0x8006 (fun op => .shrVxVy (fieldX op) (fieldY op)) ∧
  Encoding 0xF00F 0x800E (fun op => .shlVxVy (fieldX op) (fieldY op)) ∧
  (∀ (x y : Nibble) (s : State), exec (.shrVxVy x y) s = .next { s with
    V := (s.V.set x.toNat (BitVec.ofNat 8 ((s.getV x).toNat / 2)) x.isLt).set 15
      (if (s.getV x).getLsbD 0 then 1 else 0),
    pc := s.pc + 2 }) ∧
  ∀ (x y : Nibble) (s : State), exec (.shlVxVy x y) s = .next { s with
    V := (s.V.set x.toNat (BitVec.ofNat 8 ((s.getV x).toNat * 2 % 256)) x.isLt).set 15
      (if (s.getV x).getLsbD 7 then 1 else 0),
    pc := s.pc + 2 }

/-- R182 (decision D7): V[X] gets a drawn byte under the mask, whatever byte is drawn, and the next draw is a fresh one. The byte is
the free value `Config.randByte` (log 2), the counter the model's own (log 4). -/
def Obligations.RndMasksAFreshDraw : Prop :=
  Encoding 0xF000 0xC000 (fun op => .rnd (fieldX op) (fieldKK op)) ∧
  (∀ (x : Nibble) (kk : Byte) (s : State), exec (.rnd x kk) s = .next { s with
    V := s.V.set x.toNat (Config.randByte s.draws &&& kk) x.isLt, pc := s.pc + 2, draws := s.draws + 1 }) ∧
  ∀ (rand : Byte) (x : Nibble) (kk : Byte) (s : State), (rndWith rand x kk s).getV x = rand &&& kk

/-! ### Index register and memory -/

/-- R200 and R202. -/
def Obligations.IndexFromAnAddressOrAGlyph : Prop :=
  Encoding 0xF000 0xA000 (fun op => .ldINnn (fieldADDR op)) ∧
  Encoding 0xF0FF 0xF029 (fun op => .ldFVx (fieldX op)) ∧
  (∀ (addr : Addr) (s : State), exec (.ldINnn addr) s = .next { s with I := zext16 addr, pc := s.pc + 2 }) ∧
  ∀ (x : Nibble) (s : State),
    exec (.ldFVx x) s = .next { s with I := BitVec.ofNat 16 (0x050 + 5 * (s.getV x).toNat), pc := s.pc + 2 }

/-- R201 (decision D4): modulo 65536, never masked to 12 bits, VF unchanged. -/
def Obligations.AddToIndexWrapsAt16Bits : Prop :=
  Encoding 0xF0FF 0xF01E (fun op => .addIVx (fieldX op)) ∧
  ∀ (x : Nibble) (s : State), exec (.addIVx x) s =
    .next { s with I := BitVec.ofNat 16 ((s.I.toNat + (s.getV x).toNat) % 65536), pc := s.pc + 2 }

/-- R203, on canonical memory: the three digits, every other byte and all other state unchanged; or the range error
(decision D2), taken in a next state with `fault` set, which is the model's choice (decision D8; log 5). -/
def Obligations.BcdStoresThreeDigits : Prop :=
  Encoding 0xF0FF 0xF033 (fun op => .ldBVx (fieldX op)) ∧
  (∀ (x : Nibble) (s : State), s.mem.wf = true → s.I.toNat + 2 < 4096 →
    ∃ t, exec (.ldBVx x) s = .next t ∧ t = { s with mem := t.mem, pc := s.pc + 2 } ∧
      (t.mem.read s.I.toNat).toNat = (s.getV x).toNat / 100 ∧
      (t.mem.read (s.I.toNat + 1)).toNat = (s.getV x).toNat / 10 % 10 ∧
      (t.mem.read (s.I.toNat + 2)).toNat = (s.getV x).toNat % 10 ∧
      ∀ a, a < s.I.toNat ∨ s.I.toNat + 2 < a → t.mem.read a = s.mem.read a) ∧
  ∀ (x : Nibble) (s : State), 4096 ≤ s.I.toNat + 2 →
    exec (.ldBVx x) s = .next { s with fault := some (.memoryOutOfRange (max s.I.toNat 4096)) }

/-- R204, on canonical memory: X+1 registers to X+1 bytes, every other byte and all other state (I too) unchanged; or the range
error (decision D2), taken in a next state with `fault` set, which is the model's choice (decision D8; log 5). -/
def Obligations.RegisterStoreIsInclusive : Prop :=
  Encoding 0xF0FF 0xF055 (fun op => .ldMiVx (fieldX op)) ∧
  (∀ (x : Nibble) (s : State), s.mem.wf = true → s.I.toNat + x.toNat < 4096 →
    ∃ t, exec (.ldMiVx x) s = .next t ∧ t = { s with mem := t.mem, pc := s.pc + 2 } ∧
      (∀ k : Nibble, k.toNat ≤ x.toNat → t.mem.read (s.I.toNat + k.toNat) = s.getV k) ∧
      ∀ a, a < s.I.toNat ∨ s.I.toNat + x.toNat < a → t.mem.read a = s.mem.read a) ∧
  ∀ (x : Nibble) (s : State), 4096 ≤ s.I.toNat + x.toNat →
    exec (.ldMiVx x) s = .next { s with fault := some (.memoryOutOfRange (max s.I.toNat 4096)) }

/-- R205: X+1 bytes to X+1 registers, every other register and all other state (I and memory too) unchanged; or the range
error (decision D2), taken in a next state with `fault` set, which is the model's choice (decision D8; log 5). -/
def Obligations.RegisterLoadIsInclusive : Prop :=
  Encoding 0xF0FF 0xF065 (fun op => .ldVxMi (fieldX op)) ∧
  (∀ (x : Nibble) (s : State), s.I.toNat + x.toNat < 4096 →
    ∃ t, exec (.ldVxMi x) s = .next t ∧ t = { s with V := t.V, pc := s.pc + 2 } ∧
      (∀ k : Nibble, k.toNat ≤ x.toNat → t.getV k = s.mem.read (s.I.toNat + k.toNat)) ∧
      ∀ k : Nibble, x.toNat < k.toNat → t.getV k = s.getV k) ∧
  ∀ (x : Nibble) (s : State), 4096 ≤ s.I.toNat + x.toNat →
    exec (.ldVxMi x) s = .next { s with fault := some (.memoryOutOfRange (max s.I.toNat 4096)) }

/-! ### Display -/

/-- R231. -/
def Obligations.ClsClearsAndAsksForARedraw : Prop :=
  decode 0x00E0 = .instr .cls ∧
  ∀ s : State, ∃ t, exec .cls s = .next t ∧ t = { s with FB := t.FB, redraw := true, pc := s.pc + 2 } ∧
    ∀ x y, t.FB.pixel x y = false

/-- R230, R232 and the closed form of R233, which the spec marks as its own derivation: the framebuffer is XORed with the pixels under
the sprite's 1-bits, VF becomes 1 on a collision and keeps its value otherwise, `redraw` is set, nothing else changes; or the range
error. Latching at entry is decision D23 (log 15), the error decision D2; that it is taken in a next state with `fault` set is the
model's choice (decision D8; log 5). -/
def Obligations.DrawXorsTheSprite : Prop :=
  Encoding 0xF000 0xD000 (fun op => .drw (fieldX op) (fieldY op) (fieldN op)) ∧
  (∀ (x y n : Nibble) (s : State), n = 0 ∨ s.I.toNat + n.toNat ≤ 4096 →
    ∃ t, exec (.drw x y n) s = .next t ∧ t = { s with FB := t.FB, V := t.V, redraw := true, pc := s.pc + 2 } ∧
      (∀ px py, t.FB.pixel px py = (s.FB.pixel px py ^^ covers s x y n px py)) ∧
      ((∃ px py, covers s x y n px py = true ∧ s.FB.pixel px py = true) → t.getV 0xF = 1) ∧
      ((∀ px py, covers s x y n px py = true → s.FB.pixel px py = false) → t.getV 0xF = s.getV 0xF) ∧
      ∀ r : Nibble, r ≠ 0xF → t.getV r = s.getV r) ∧
  ∀ (x y n : Nibble) (s : State), n ≠ 0 → 4096 < s.I.toNat + n.toNat →
    exec (.drw x y n) s = .next { s with fault := some (.memoryOutOfRange (max s.I.toNat 4096)) }

/-- R234, which the spec marks as its own derivation: the same sprite drawn twice at the same place restores the framebuffer, and, if it has
a 1-bit, leaves VF = 1. -/
def Obligations.DrawingTwiceRestoresTheFramebuffer : Prop :=
  ∀ (x y n : Nibble) (s t u : State), n = 0 ∨ s.I.toNat + n.toNat ≤ 4096 →
    exec (.drw x y n) s = .next t → exec (.drw x y n) t = .next u →
    (t.getV x).toNat % 64 = (s.getV x).toNat % 64 → (t.getV y).toNat % 32 = (s.getV y).toNat % 32 →
    u.FB = s.FB ∧ ((∃ px py, covers s x y n px py = true) → u.getV 0xF = 1)

/-! ### Keypad and timers -/

/-- R260, R261 and R306: the level of the key V[X] names; KeyIndexOutOfRange above 15 (decision D5; log 18), taken in a
next state with `fault` set, which is the model's choice (decision D8; log 5). -/
def Obligations.KeySkipsTestTheLevel : Prop :=
  Encoding 0xF0FF 0xE09E (fun op => .skp (fieldX op)) ∧
  Encoding 0xF0FF 0xE0A1 (fun op => .sknp (fieldX op)) ∧
  (∀ (x : Nibble) (s : State) (k : Fin 16), (s.getV x).toNat = k.val →
    exec (.skp x) s = .next { s with pc := s.pc + if s.keys[k] then 4 else 2 }) ∧
  (∀ (x : Nibble) (s : State) (k : Fin 16), (s.getV x).toNat = k.val →
    exec (.sknp x) s = .next { s with pc := s.pc + if s.keys[k] then 2 else 4 }) ∧
  ∀ (x : Nibble) (s : State), 15 < (s.getV x).toNat →
    exec (.skp x) s = .next { s with fault := some (.keyIndexOutOfRange (s.getV x)) } ∧
    exec (.sknp x) s = .next { s with fault := some (.keyIndexOutOfRange (s.getV x)) }

/-- R262 and R264. -/
def Obligations.DelayTimerMovesToAndFromRegisters : Prop :=
  Encoding 0xF0FF 0xF007 (fun op => .ldVxDt (fieldX op)) ∧
  Encoding 0xF0FF 0xF015 (fun op => .ldDtVx (fieldX op)) ∧
  (∀ (x : Nibble) (s : State),
    exec (.ldVxDt x) s = .next { s with V := s.V.set x.toNat s.DT x.isLt, pc := s.pc + 2 }) ∧
  ∀ (x : Nibble) (s : State), exec (.ldDtVx x) s = .next { s with DT := s.getV x, pc := s.pc + 2 }

/-- R265: ST is written from a register, and no instruction reads it back: from states that differ in ST alone, every instruction goes,
for the same draws, to states that differ in ST at most. That both runs make the same draw at CXKK and FX0A is the form of the model's
draws (logs 2 and 3). -/
def Obligations.SoundTimerIsWrittenAndNeverRead : Prop :=
  Encoding 0xF0FF 0xF018 (fun op => .ldStVx (fieldX op)) ∧
  (∀ (x : Nibble) (s : State), exec (.ldStVx x) s = .next { s with ST := s.getV x, pc := s.pc + 2 }) ∧
  ∀ (i : Instr) (s t : State) (v : Byte), exec i s = .next t →
    ∃ u, exec i { s with ST := v } = .next u ∧ { u with ST := t.ST } = t

/-- R263 (decision D6): with no key down nothing changes; else V[X] gets the number of some key that is down. Which one is the free
value `Config.keyChoice` (log 3), the draw counter the model's own (log 4). -/
def Obligations.KeyWaitCapturesADownKey : Prop :=
  Encoding 0xF0FF 0xF00A (fun op => .ldVxK (fieldX op)) ∧
  (∀ (x : Nibble) (s : State), (∀ k : Fin 16, s.keys[k] = false) → exec (.ldVxK x) s = .next s) ∧
  ∀ (x : Nibble) (s : State), (∃ k : Fin 16, s.keys[k] = true) →
    ∃ k : Fin 16, s.keys[k] = true ∧ exec (.ldVxK x) s = .next { s with
      V := s.V.set x.toNat (BitVec.ofNat 8 k.val) x.isLt, pc := s.pc + 2, draws := s.draws + 1 }

/-- The draw `keysel` of R17 ranges over exactly the keys that are down: every one of them for some choice, no other for any
(decision D6; log 3). -/
def Obligations.KeyDrawRangesOverTheDownKeys : Prop :=
  ∀ (keys : Vector Bool 16) (k : Fin 16), (∃ choice, selectKey choice keys = some k) ↔ keys[k] = true

/-! ### Frames over all instructions -/

/-- The write column of the table of R33: a register the table does not name for the instruction keeps its value. -/
def Obligations.RegistersChangeOnlyByTheTable : Prop :=
  ∀ (i : Instr) (s t : State) (r : Nibble), exec i s = .next t → ¬ mayWriteV i r → t.getV r = s.getV r

/-- Who may change each other item: I (R38), the stack (R39), DT and ST (R42), FB and `redraw` (R43, R44); no instruction changes keys
(R45) or the latch (R48). RET leaves the slots as they are (R41), and `redraw` only ever becomes set. -/
def Obligations.OtherStateChangesOnlyByItsWriters : Prop :=
  ∀ (i : Instr) (s t : State), exec i s = .next t →
    (t.I ≠ s.I → (∃ a, i = .ldINnn a) ∨ (∃ x, i = .addIVx x) ∨ ∃ x, i = .ldFVx x) ∧
    (t.stack ≠ s.stack → ∃ a, i = .call a) ∧
    (t.sp ≠ s.sp → i = .ret ∨ ∃ a, i = .call a) ∧
    (t.DT ≠ s.DT → ∃ x, i = .ldDtVx x) ∧
    (t.ST ≠ s.ST → ∃ x, i = .ldStVx x) ∧
    (t.FB ≠ s.FB → i = .cls ∨ ∃ x y n, i = .drw x y n) ∧
    (t.redraw ≠ s.redraw → t.redraw = true ∧ (i = .cls ∨ ∃ x y n, i = .drw x y n)) ∧
    t.keys = s.keys ∧ t.opcode = s.opcode

/-- Only FX33 and FX55 store (R80, R85): every byte outside `I .. I + storedLength - 1` reads as before, on canonical memory. -/
def Obligations.MemoryChangesOnlyInTheStoredRange : Prop :=
  ∀ (i : Instr) (s t : State) (a : Nat), s.mem.wf = true → exec i s = .next t →
    a < s.I.toNat ∨ s.I.toNat + storedLength i ≤ a → t.mem.read a = s.mem.read a

/-- R140: an instruction that is no control transfer ends with `pc + 2`; one that takes a fatal error leaves `pc` (R304, decision D8;
that taking it is a next state is log 5). -/
def Obligations.FallThroughAdvancesPcByTwo : Prop :=
  ∀ (i : Instr) (s t : State), s.fault = none → exec i s = .next t →
    (t.fault ≠ none → t.pc = s.pc) ∧ (t.fault = none → ¬ setsPcItself i → t.pc = s.pc + 2)

/-- R51: `redraw` and the opcode latch are invisible to the program: from states that differ in them alone, every instruction goes, for
the same draws, to states that differ in them at most. That both runs make the same draw at CXKK and FX0A is the form of the model's
draws (logs 2 and 3). -/
def Obligations.RedrawAndLatchAreNeverRead : Prop :=
  ∀ (i : Instr) (s t : State) (b : Bool) (w : Word), exec i s = .next t →
    ∃ u, exec i { s with redraw := b, opcode := w } = .next u ∧ { u with redraw := t.redraw, opcode := t.opcode } = t

/-! ### Sequences -/

/-- A call and the return that follows it come back to the address after the call, at the depth before it (R142, R144; the source's
property S3). -/
def Obligations.CallThenReturnComesBack : Prop :=
  ∀ (addr : Addr) (s : State), s.sp ≠ 16 →
    ∃ t u, exec (.call addr) s = .next t ∧ exec .ret t = .next u ∧ u.pc = s.pc + 2 ∧ u.sp = s.sp ∧ t.sp ≠ s.sp

/-- R363, which the spec marks as its own derivation: DT written with FX15 and read back with FX07 after `k` ticks is the value minus
`k`, floored at 0. -/
def Obligations.DelayTimerReadsBackLessTheTicks : Prop :=
  ∀ (x y : Nibble) (k : Nat) (s : State), ∃ t u, exec (.ldDtVx x) s = .next t ∧
    exec (.ldVxDt y) (Nat.iterate State.tick60 k t) = .next u ∧ (u.getV y).toNat = (s.getV x).toNat - k

/-- R97, which the spec marks as its own derivation: every byte that FX55 or FX33 stores is the byte a later fetch reads at its address,
as the high byte of the word at that address and as the low byte of the word one below. -/
def Obligations.StoredBytesAreFetched : Prop :=
  (∀ (x : Nibble) (s : State), s.mem.wf = true → s.I.toNat + x.toNat < 4096 →
    ∃ t, exec (.ldMiVx x) s = .next t ∧
      ∀ u : State, u.mem = t.mem → u.pc.toNat < 4095 → ∃ hi lo, fetchWord u = .ok (bigEndian hi lo) ∧
        ∀ k : Nibble, k.toNat ≤ x.toNat →
          (u.pc.toNat = s.I.toNat + k.toNat → hi = s.getV k) ∧ (u.pc.toNat + 1 = s.I.toNat + k.toNat → lo = s.getV k)) ∧
  ∀ (x : Nibble) (s : State), s.mem.wf = true → s.I.toNat + 2 < 4096 →
    ∃ t, exec (.ldBVx x) s = .next t ∧
      ∀ u : State, u.mem = t.mem → u.pc.toNat < 4095 → ∃ hi lo, fetchWord u = .ok (bigEndian hi lo) ∧
        ∀ k : Fin 3,
          (u.pc.toNat = s.I.toNat + k.val → hi.toNat = (s.getV x).toNat / 10 ^ (2 - k.val) % 10) ∧
          (u.pc.toNat + 1 = s.I.toNat + k.val → lo.toNat = (s.getV x).toNat / 10 ^ (2 - k.val) % 10)

/-- R367 (decision D30): at an idle state a step changes at most the opcode latch, and every later step changes nothing. That the first
step may still write the latch is the model's reading (log 21). -/
def Obligations.IdleStatesStayAsTheyAre : Prop :=
  ∀ s : State, s.idle = true → ∃ t, step s = .next t ∧ t = { s with opcode := t.opcode } ∧ step t = .next t

/-! ### The host's ports -/

/-- R320: tick, the core's writes and the host's; only `tick` counts down, and a timer at 0 stays there until written. That the port
TICK60 ticks both timers at once is R321 and R332 (decision D15; log 12). -/
def Obligations.TimersTickAndFloorAtZero : Prop :=
  (∀ t : Byte, (tick t).toNat = if t = 0 then 0 else t.toNat - 1) ∧
  (∀ s : State, s.tick60 = { s with DT := tick s.DT, ST := tick s.ST }) ∧
  (∀ c : Session, c.transact .tick60 = .next ({ c with core := c.core.tick60 }, .none)) ∧
  (∀ (x : Nibble) (s : State), ∃ t, exec (.ldDtVx x) s = .next t ∧ t.DT = s.getV x ∧ t.ST = s.ST) ∧
  (∀ (x : Nibble) (s : State), ∃ t, exec (.ldStVx x) s = .next t ∧ t.ST = s.getV x ∧ t.DT = s.DT) ∧
  (∀ (v : Byte) (s : State), s.dtWr v = { s with DT := v } ∧ s.stWr v = { s with ST := v }) ∧
  ∀ (τ : Transaction) (c d : Session) (r : Response), c.transact τ = .next (d, r) → τ ≠ .tick60 →
    (d.core.DT = c.core.DT ∨ (∃ v, τ = .dtWr v ∧ d.core.DT = v) ∨ τ = .step ∧ ∃ x, d.core.DT = c.core.getV x) ∧
    (d.core.ST = c.core.ST ∨ (∃ v, τ = .stWr v ∧ d.core.ST = v) ∨ τ = .step ∧ ∃ x, d.core.ST = c.core.getV x)

/-- R333 (decision D31; log 11): SET_KEY writes one key and nothing else, and a wider index is refused. -/
def Obligations.SetKeyWritesOneKey : Prop :=
  (∀ (c : Session) (k : Fin 16) (b : Bool), c.transact (.setKey k.val b) =
    .next ({ c with core := { c.core with keys := c.core.keys.set k.val b k.isLt } }, .none)) ∧
  ∀ (c : Session) (k : Nat) (b : Bool), 15 < k → c.transact (.setKey k b) = .refused (.keyIndexTooWide k)

/-- R356, with the copy of R355 on canonical memory: 3584 bytes fit and fill 0x200..0xFFF, one more does not, none writes nothing; and an
admitted LOAD answers Ok with that state, or ProgramTooLarge with the length and the core unchanged (R307, R355; decision D14, log 10). -/
def Obligations.LoadCopiesUpToTheLimit : Prop :=
  (∀ (s : State) (bytes : List Byte), s.mem.wf = true → bytes.length ≤ 3584 →
    ∃ t, s.loadProgram bytes = .ok t ∧ t = { s with mem := t.mem } ∧
      (∀ k (h : k < bytes.length), t.mem.read (0x200 + k) = bytes[k]) ∧
      ∀ a, a < 0x200 ∨ 0x200 + bytes.length ≤ a → t.mem.read a = s.mem.read a) ∧
  (∀ (s : State) (bytes : List Byte), 3584 < bytes.length →
    s.loadProgram bytes = .programTooLarge bytes.length) ∧
  (∀ s : State, s.loadProgram [] = .ok s) ∧
  ∀ (c : Session) (bytes : List Byte), c.loadOpen = true →
    (bytes.length ≤ 3584 → ∃ t, c.core.loadProgram bytes = .ok t ∧ c.transact (.load bytes) = .next (⟨t, false⟩, .ok)) ∧
    (3584 < bytes.length → c.transact (.load bytes) = .next (⟨c.core, false⟩, .programTooLarge bytes.length))

/-- R357 and R340 (decisions D14 and D27; log 10): LOAD is admitted until the first STEP or the first LOAD, and by nothing after. -/
def Obligations.LoadIsAdmittedOnce : Prop :=
  (∀ (c : Session) (bytes : List Byte), c.loadOpen = true → ∃ d r, c.transact (.load bytes) = .next (d, r)) ∧
  (∀ (c : Session) (bytes : List Byte), c.loadOpen = false → c.transact (.load bytes) = .refused .loadNotAdmitted) ∧
  ∀ (τ : Transaction) (c d : Session) (r : Response), c.transact τ = .next (d, r) →
    (d.loadOpen = true ↔ c.loadOpen = true ∧ τ ≠ .step ∧ ∀ b, τ ≠ .load b)

/-- R335 and R336 (decision D26): FB_READ's bit `64 y + x` is the pixel (x, y) and changes nothing; REDRAW_RC answers the flag and clears
it. -/
def Obligations.DisplayPortsReadAndClear : Prop :=
  (∀ c : Session, ∃ bits : Vector Bool 2048, c.transact .fbRead = .next (c, .pixels bits) ∧
    ∀ (x : Fin 64) (y : Fin 32), bits[y.val * 64 + x.val]? = some (c.core.FB.pixel x y)) ∧
  ∀ c : Session, c.transact .redrawRC =
    .next ({ c with core := { c.core with redraw := false } }, .flag c.core.redraw)

/-- R337 and R338 (decisions D18 and D22): the timer ports read and write the timers alone, and STATUS gives the snapshot and changes
nothing. -/
def Obligations.TimerAndStatusPorts : Prop :=
  ∀ c : Session,
    c.transact .dtRd = .next (c, .byte c.core.DT) ∧ c.transact .stRd = .next (c, .byte c.core.ST) ∧
    (∀ v, c.transact (.dtWr v) = .next ({ c with core := { c.core with DT := v } }, .none)) ∧
    (∀ v, c.transact (.stWr v) = .next ({ c with core := { c.core with ST := v } }, .none)) ∧
    c.transact .status = .next (c, .snapshot ⟨c.core.fault, c.core.opcode, c.core.pc, c.core.I, c.core.sp, c.core.V,
      c.core.stack, c.core.DT, c.core.ST⟩)

/-- R331 and R304: on a core that is not stopped a step gives a next state, and STEP answers Ok with it, or, in the very step that takes
an error, Fault with the error and the state that records it (decision D8; that taking it is a next state is log 5, that no LOAD may
follow log 10). -/
def Obligations.StepPortAnswersOkOrTheFault : Prop :=
  ∀ c : Session, c.core.fault = none → ∃ t, step c.core = .next t ∧
    (t.fault = none → c.transact .step = .next (⟨t, false⟩, .ok)) ∧
    ∀ e, t.fault = some e → c.transact .step = .next (⟨t, false⟩, .fault e)
end

