-- ==== Sys2Proof/Laws/Decode.lean ====
section
/-!
SUPPORT. The fields of the encoder's words, and the words that fields determine.
-/
namespace Sys2Proof

@[simp] theorem fieldFamily_formA (f : Nibble) (a : Addr) : fieldFamily (formA f a) = f := by
  ext i hi; interval_cases i <;> simp [fieldFamily, formA, place]

@[simp] theorem fieldADDR_formA (f : Nibble) (a : Addr) : fieldADDR (formA f a) = a := by
  ext i hi; interval_cases i <;> simp [fieldADDR, formA, place]

@[simp] theorem fieldFamily_formK (f x : Nibble) (kk : Byte) : fieldFamily (formK f x kk) = f := by
  ext i hi; interval_cases i <;> simp [fieldFamily, formK, place]

@[simp] theorem fieldX_formK (f x : Nibble) (kk : Byte) : fieldX (formK f x kk) = x := by
  ext i hi; interval_cases i <;> simp [fieldX, formK, place]

@[simp] theorem fieldKK_formK (f x : Nibble) (kk : Byte) : fieldKK (formK f x kk) = kk := by
  ext i hi; interval_cases i <;> simp [fieldKK, formK, place]

@[simp] theorem fieldFamily_formR (f x y n : Nibble) : fieldFamily (formR f x y n) = f := by
  ext i hi; interval_cases i <;> simp [fieldFamily, formR, place]

@[simp] theorem fieldX_formR (f x y n : Nibble) : fieldX (formR f x y n) = x := by
  ext i hi; interval_cases i <;> simp [fieldX, formR, place]

@[simp] theorem fieldY_formR (f x y n : Nibble) : fieldY (formR f x y n) = y := by
  ext i hi; interval_cases i <;> simp [fieldY, formR, place]

@[simp] theorem fieldN_formR (f x y n : Nibble) : fieldN (formR f x y n) = n := by
  ext i hi; interval_cases i <;> simp [fieldN, formR, place]

/-- A word is its family and its ADDR. -/
theorem formA_fields (op : Word) : formA (fieldFamily op) (fieldADDR op) = op := by
  ext i hi; interval_cases i <;> simp [fieldFamily, fieldADDR, formA, place]

/-- A word is its family, X and KK. -/
theorem formK_fields (op : Word) : formK (fieldFamily op) (fieldX op) (fieldKK op) = op := by
  ext i hi; interval_cases i <;> simp [fieldFamily, fieldX, fieldKK, formK, place]

/-- A word is its family, X, Y and N. -/
theorem formR_fields (op : Word) : formR (fieldFamily op) (fieldX op) (fieldY op) (fieldN op) = op := by
  ext i hi; interval_cases i <;> simp [fieldFamily, fieldX, fieldY, fieldN, formR, place]

/-! What the bits under a mask say of a field the mask covers. -/

theorem fieldFamily_of_mask {op m v : Word} (h : op &&& m = v) (hm : fieldFamily m = 0xF) : fieldFamily op = fieldFamily v := by
  have h' := congrArg fieldFamily h
  simp only [fieldFamily, BitVec.extractLsb'_and] at h' hm ⊢
  rw [hm] at h'
  rw [← h']
  generalize BitVec.extractLsb' 12 4 op = f
  revert f
  decide

theorem fieldX_of_mask {op m v : Word} (h : op &&& m = v) (hm : fieldX m = 0xF) : fieldX op = fieldX v := by
  have h' := congrArg fieldX h
  simp only [fieldX, BitVec.extractLsb'_and] at h' hm ⊢
  rw [hm] at h'
  rw [← h']
  generalize BitVec.extractLsb' 8 4 op = f
  revert f
  decide

theorem fieldN_of_mask {op m v : Word} (h : op &&& m = v) (hm : fieldN m = 0xF) : fieldN op = fieldN v := by
  have h' := congrArg fieldN h
  simp only [fieldN, BitVec.extractLsb'_and] at h' hm ⊢
  rw [hm] at h'
  rw [← h']
  generalize BitVec.extractLsb' 0 4 op = f
  revert f
  decide

theorem fieldKK_of_mask {op m v : Word} (h : op &&& m = v) (hm : fieldKK m = 0xFF) : fieldKK op = fieldKK v := by
  have h' := congrArg fieldKK h
  simp only [fieldKK, BitVec.extractLsb'_and] at h' hm ⊢
  rw [hm] at h'
  rw [← h']
  generalize BitVec.extractLsb' 0 8 op = f
  revert f
  decide

/-! What decode does in each family (R115), so that no proof unfolds its chain of tests. -/

theorem decode_family0 {op : Word} (h : fieldFamily op = 0x0#4) :
    decode op = decodeFamily0 op := by simp [decode, h]

theorem decode_family1 {op : Word} (h : fieldFamily op = 0x1#4) :
    decode op = .instr (.jp (fieldADDR op)) := by simp [decode, h]

theorem decode_family2 {op : Word} (h : fieldFamily op = 0x2#4) :
    decode op = .instr (.call (fieldADDR op)) := by simp [decode, h]

theorem decode_family3 {op : Word} (h : fieldFamily op = 0x3#4) :
    decode op = .instr (.seVxKk (fieldX op) (fieldKK op)) := by simp [decode, h]

theorem decode_family4 {op : Word} (h : fieldFamily op = 0x4#4) :
    decode op = .instr (.sneVxKk (fieldX op) (fieldKK op)) := by simp [decode, h]

theorem decode_family5 {op : Word} (h : fieldFamily op = 0x5#4) :
    decode op = if fieldN op = 0x0#4 then .instr (.seVxVy (fieldX op) (fieldY op)) else .unknownOpcode op := by simp [decode, h]

theorem decode_family6 {op : Word} (h : fieldFamily op = 0x6#4) :
    decode op = .instr (.ldVxKk (fieldX op) (fieldKK op)) := by simp [decode, h]

theorem decode_family7 {op : Word} (h : fieldFamily op = 0x7#4) :
    decode op = .instr (.addVxKk (fieldX op) (fieldKK op)) := by simp [decode, h]

theorem decode_family8 {op : Word} (h : fieldFamily op = 0x8#4) :
    decode op = decodeFamily8 op := by simp [decode, h]

theorem decode_family9 {op : Word} (h : fieldFamily op = 0x9#4) :
    decode op = if fieldN op = 0x0#4 then .instr (.sneVxVy (fieldX op) (fieldY op)) else .unknownOpcode op := by simp [decode, h]

theorem decode_familyA {op : Word} (h : fieldFamily op = 0xA#4) :
    decode op = .instr (.ldINnn (fieldADDR op)) := by simp [decode, h]

theorem decode_familyB {op : Word} (h : fieldFamily op = 0xB#4) :
    decode op = .instr (.jpV0Nnn (fieldADDR op)) := by simp [decode, h]

theorem decode_familyC {op : Word} (h : fieldFamily op = 0xC#4) :
    decode op = .instr (.rnd (fieldX op) (fieldKK op)) := by simp [decode, h]

theorem decode_familyD {op : Word} (h : fieldFamily op = 0xD#4) :
    decode op = .instr (.drw (fieldX op) (fieldY op) (fieldN op)) := by simp [decode, h]

theorem decode_familyE {op : Word} (h : fieldFamily op = 0xE#4) :
    decode op = decodeFamilyE op := by simp [decode, h]

theorem decode_familyF {op : Word} (h : fieldFamily op = 0xF#4) :
    decode op = decodeFamilyF op := by simp [decode, h]

/-- Every word is in one of the sixteen families. -/
theorem fieldFamily_cases (op : Word) :
    fieldFamily op = 0x0#4 ∨ fieldFamily op = 0x1#4 ∨ fieldFamily op = 0x2#4 ∨ fieldFamily op = 0x3#4 ∨
    fieldFamily op = 0x4#4 ∨ fieldFamily op = 0x5#4 ∨ fieldFamily op = 0x6#4 ∨ fieldFamily op = 0x7#4 ∨
    fieldFamily op = 0x8#4 ∨ fieldFamily op = 0x9#4 ∨ fieldFamily op = 0xA#4 ∨ fieldFamily op = 0xB#4 ∨
    fieldFamily op = 0xC#4 ∨ fieldFamily op = 0xD#4 ∨ fieldFamily op = 0xE#4 ∨ fieldFamily op = 0xF#4 := by
  generalize fieldFamily op = f
  revert f
  decide

/-- The bytes of a word read big-endian are the word. -/
@[simp] theorem bigEndian_wordBytes (w : Word) : bigEndian (w.extractLsb' 8 8) (w.extractLsb' 0 8) = w := by
  apply BitVec.eq_of_getLsbD_eq
  intro i hi
  rw [bigEndian, BitVec.getLsbD_append]
  by_cases h : i < 8
  · simp [h]
  · have h8 : i - 8 < 8 := by omega
    have e : 8 + (i - 8) = i := by omega
    simp [h, h8, e]

/-- Decoding the bytes of a word is decoding the word. -/
theorem decodeBytes_wordBytes (w : Word) (rest : List Byte) :
    decodeBytes (wordBytes w ++ rest) =
      match decode w with
      | .instr i => .instr i rest
      | .unknownOpcode op => .unknownOpcode op := by
  cases h : decode w <;>
    simp only [wordBytes, List.cons_append, List.nil_append, decodeBytes, bigEndian_wordBytes, h]

end Sys2Proof
end

