-- ==== Sys2Proof/Laws/State.lean ====
section
/-!
SUPPORT. One lemma per field of State per update of Machine/Ops.lean and Machine/Flags.lean, so that no proof unfolds a record update.
-/
namespace Sys2Proof.Machine

@[simp] theorem State.latch_mem (s : State) (w : Word) : (s.latch w).mem = s.mem := rfl
@[simp] theorem State.latch_V (s : State) (w : Word) : (s.latch w).V = s.V := rfl
@[simp] theorem State.latch_I (s : State) (w : Word) : (s.latch w).I = s.I := rfl
@[simp] theorem State.latch_pc (s : State) (w : Word) : (s.latch w).pc = s.pc := rfl
@[simp] theorem State.latch_stack (s : State) (w : Word) : (s.latch w).stack = s.stack := rfl
@[simp] theorem State.latch_sp (s : State) (w : Word) : (s.latch w).sp = s.sp := rfl
@[simp] theorem State.latch_DT (s : State) (w : Word) : (s.latch w).DT = s.DT := rfl
@[simp] theorem State.latch_ST (s : State) (w : Word) : (s.latch w).ST = s.ST := rfl
@[simp] theorem State.latch_FB (s : State) (w : Word) : (s.latch w).FB = s.FB := rfl
@[simp] theorem State.latch_redraw (s : State) (w : Word) : (s.latch w).redraw = s.redraw := rfl
@[simp] theorem State.latch_keys (s : State) (w : Word) : (s.latch w).keys = s.keys := rfl
@[simp] theorem State.latch_opcode (s : State) (w : Word) : (s.latch w).opcode = w := rfl
@[simp] theorem State.latch_fault (s : State) (w : Word) : (s.latch w).fault = s.fault := rfl
@[simp] theorem State.latch_draws (s : State) (w : Word) : (s.latch w).draws = s.draws := rfl

@[simp] theorem State.setV_mem (s : State) (x : Nibble) (v : Byte) : (s.setV x v).mem = s.mem := rfl
@[simp] theorem State.setV_V (s : State) (x : Nibble) (v : Byte) : (s.setV x v).V = s.V.set x.toNat v x.isLt := rfl
@[simp] theorem State.setV_I (s : State) (x : Nibble) (v : Byte) : (s.setV x v).I = s.I := rfl
@[simp] theorem State.setV_pc (s : State) (x : Nibble) (v : Byte) : (s.setV x v).pc = s.pc := rfl
@[simp] theorem State.setV_stack (s : State) (x : Nibble) (v : Byte) : (s.setV x v).stack = s.stack := rfl
@[simp] theorem State.setV_sp (s : State) (x : Nibble) (v : Byte) : (s.setV x v).sp = s.sp := rfl
@[simp] theorem State.setV_DT (s : State) (x : Nibble) (v : Byte) : (s.setV x v).DT = s.DT := rfl
@[simp] theorem State.setV_ST (s : State) (x : Nibble) (v : Byte) : (s.setV x v).ST = s.ST := rfl
@[simp] theorem State.setV_FB (s : State) (x : Nibble) (v : Byte) : (s.setV x v).FB = s.FB := rfl
@[simp] theorem State.setV_redraw (s : State) (x : Nibble) (v : Byte) : (s.setV x v).redraw = s.redraw := rfl
@[simp] theorem State.setV_keys (s : State) (x : Nibble) (v : Byte) : (s.setV x v).keys = s.keys := rfl
@[simp] theorem State.setV_opcode (s : State) (x : Nibble) (v : Byte) : (s.setV x v).opcode = s.opcode := rfl
@[simp] theorem State.setV_fault (s : State) (x : Nibble) (v : Byte) : (s.setV x v).fault = s.fault := rfl
@[simp] theorem State.setV_draws (s : State) (x : Nibble) (v : Byte) : (s.setV x v).draws = s.draws := rfl

@[simp] theorem State.jumpTo_mem (s : State) (w : Word) : (s.jumpTo w).mem = s.mem := rfl
@[simp] theorem State.jumpTo_V (s : State) (w : Word) : (s.jumpTo w).V = s.V := rfl
@[simp] theorem State.jumpTo_I (s : State) (w : Word) : (s.jumpTo w).I = s.I := rfl
@[simp] theorem State.jumpTo_pc (s : State) (w : Word) : (s.jumpTo w).pc = w := rfl
@[simp] theorem State.jumpTo_stack (s : State) (w : Word) : (s.jumpTo w).stack = s.stack := rfl
@[simp] theorem State.jumpTo_sp (s : State) (w : Word) : (s.jumpTo w).sp = s.sp := rfl
@[simp] theorem State.jumpTo_DT (s : State) (w : Word) : (s.jumpTo w).DT = s.DT := rfl
@[simp] theorem State.jumpTo_ST (s : State) (w : Word) : (s.jumpTo w).ST = s.ST := rfl
@[simp] theorem State.jumpTo_FB (s : State) (w : Word) : (s.jumpTo w).FB = s.FB := rfl
@[simp] theorem State.jumpTo_redraw (s : State) (w : Word) : (s.jumpTo w).redraw = s.redraw := rfl
@[simp] theorem State.jumpTo_keys (s : State) (w : Word) : (s.jumpTo w).keys = s.keys := rfl
@[simp] theorem State.jumpTo_opcode (s : State) (w : Word) : (s.jumpTo w).opcode = s.opcode := rfl
@[simp] theorem State.jumpTo_fault (s : State) (w : Word) : (s.jumpTo w).fault = s.fault := rfl
@[simp] theorem State.jumpTo_draws (s : State) (w : Word) : (s.jumpTo w).draws = s.draws := rfl

@[simp] theorem State.advance_mem (s : State) : (s.advance).mem = s.mem := rfl
@[simp] theorem State.advance_V (s : State) : (s.advance).V = s.V := rfl
@[simp] theorem State.advance_I (s : State) : (s.advance).I = s.I := rfl
@[simp] theorem State.advance_pc (s : State) : (s.advance).pc = s.pc + 2 := rfl
@[simp] theorem State.advance_stack (s : State) : (s.advance).stack = s.stack := rfl
@[simp] theorem State.advance_sp (s : State) : (s.advance).sp = s.sp := rfl
@[simp] theorem State.advance_DT (s : State) : (s.advance).DT = s.DT := rfl
@[simp] theorem State.advance_ST (s : State) : (s.advance).ST = s.ST := rfl
@[simp] theorem State.advance_FB (s : State) : (s.advance).FB = s.FB := rfl
@[simp] theorem State.advance_redraw (s : State) : (s.advance).redraw = s.redraw := rfl
@[simp] theorem State.advance_keys (s : State) : (s.advance).keys = s.keys := rfl
@[simp] theorem State.advance_opcode (s : State) : (s.advance).opcode = s.opcode := rfl
@[simp] theorem State.advance_fault (s : State) : (s.advance).fault = s.fault := rfl
@[simp] theorem State.advance_draws (s : State) : (s.advance).draws = s.draws := rfl

@[simp] theorem State.skipIf_mem (s : State) (c : Bool) : (s.skipIf c).mem = s.mem := rfl
@[simp] theorem State.skipIf_V (s : State) (c : Bool) : (s.skipIf c).V = s.V := rfl
@[simp] theorem State.skipIf_I (s : State) (c : Bool) : (s.skipIf c).I = s.I := rfl
@[simp] theorem State.skipIf_pc (s : State) (c : Bool) : (s.skipIf c).pc = s.pc + if c then 4 else 2 := rfl
@[simp] theorem State.skipIf_stack (s : State) (c : Bool) : (s.skipIf c).stack = s.stack := rfl
@[simp] theorem State.skipIf_sp (s : State) (c : Bool) : (s.skipIf c).sp = s.sp := rfl
@[simp] theorem State.skipIf_DT (s : State) (c : Bool) : (s.skipIf c).DT = s.DT := rfl
@[simp] theorem State.skipIf_ST (s : State) (c : Bool) : (s.skipIf c).ST = s.ST := rfl
@[simp] theorem State.skipIf_FB (s : State) (c : Bool) : (s.skipIf c).FB = s.FB := rfl
@[simp] theorem State.skipIf_redraw (s : State) (c : Bool) : (s.skipIf c).redraw = s.redraw := rfl
@[simp] theorem State.skipIf_keys (s : State) (c : Bool) : (s.skipIf c).keys = s.keys := rfl
@[simp] theorem State.skipIf_opcode (s : State) (c : Bool) : (s.skipIf c).opcode = s.opcode := rfl
@[simp] theorem State.skipIf_fault (s : State) (c : Bool) : (s.skipIf c).fault = s.fault := rfl
@[simp] theorem State.skipIf_draws (s : State) (c : Bool) : (s.skipIf c).draws = s.draws := rfl

@[simp] theorem State.setI_mem (s : State) (w : Word) : (s.setI w).mem = s.mem := rfl
@[simp] theorem State.setI_V (s : State) (w : Word) : (s.setI w).V = s.V := rfl
@[simp] theorem State.setI_I (s : State) (w : Word) : (s.setI w).I = w := rfl
@[simp] theorem State.setI_pc (s : State) (w : Word) : (s.setI w).pc = s.pc := rfl
@[simp] theorem State.setI_stack (s : State) (w : Word) : (s.setI w).stack = s.stack := rfl
@[simp] theorem State.setI_sp (s : State) (w : Word) : (s.setI w).sp = s.sp := rfl
@[simp] theorem State.setI_DT (s : State) (w : Word) : (s.setI w).DT = s.DT := rfl
@[simp] theorem State.setI_ST (s : State) (w : Word) : (s.setI w).ST = s.ST := rfl
@[simp] theorem State.setI_FB (s : State) (w : Word) : (s.setI w).FB = s.FB := rfl
@[simp] theorem State.setI_redraw (s : State) (w : Word) : (s.setI w).redraw = s.redraw := rfl
@[simp] theorem State.setI_keys (s : State) (w : Word) : (s.setI w).keys = s.keys := rfl
@[simp] theorem State.setI_opcode (s : State) (w : Word) : (s.setI w).opcode = s.opcode := rfl
@[simp] theorem State.setI_fault (s : State) (w : Word) : (s.setI w).fault = s.fault := rfl
@[simp] theorem State.setI_draws (s : State) (w : Word) : (s.setI w).draws = s.draws := rfl

@[simp] theorem State.storeBytes_mem (s : State) (a : Nat) (vs : List Byte) : (s.storeBytes a vs).mem = s.mem.writeBytes a vs := rfl
@[simp] theorem State.storeBytes_V (s : State) (a : Nat) (vs : List Byte) : (s.storeBytes a vs).V = s.V := rfl
@[simp] theorem State.storeBytes_I (s : State) (a : Nat) (vs : List Byte) : (s.storeBytes a vs).I = s.I := rfl
@[simp] theorem State.storeBytes_pc (s : State) (a : Nat) (vs : List Byte) : (s.storeBytes a vs).pc = s.pc := rfl
@[simp] theorem State.storeBytes_stack (s : State) (a : Nat) (vs : List Byte) : (s.storeBytes a vs).stack = s.stack := rfl
@[simp] theorem State.storeBytes_sp (s : State) (a : Nat) (vs : List Byte) : (s.storeBytes a vs).sp = s.sp := rfl
@[simp] theorem State.storeBytes_DT (s : State) (a : Nat) (vs : List Byte) : (s.storeBytes a vs).DT = s.DT := rfl
@[simp] theorem State.storeBytes_ST (s : State) (a : Nat) (vs : List Byte) : (s.storeBytes a vs).ST = s.ST := rfl
@[simp] theorem State.storeBytes_FB (s : State) (a : Nat) (vs : List Byte) : (s.storeBytes a vs).FB = s.FB := rfl
@[simp] theorem State.storeBytes_redraw (s : State) (a : Nat) (vs : List Byte) : (s.storeBytes a vs).redraw = s.redraw := rfl
@[simp] theorem State.storeBytes_keys (s : State) (a : Nat) (vs : List Byte) : (s.storeBytes a vs).keys = s.keys := rfl
@[simp] theorem State.storeBytes_opcode (s : State) (a : Nat) (vs : List Byte) : (s.storeBytes a vs).opcode = s.opcode := rfl
@[simp] theorem State.storeBytes_fault (s : State) (a : Nat) (vs : List Byte) : (s.storeBytes a vs).fault = s.fault := rfl
@[simp] theorem State.storeBytes_draws (s : State) (a : Nat) (vs : List Byte) : (s.storeBytes a vs).draws = s.draws := rfl

@[simp] theorem State.setResultAndFlag_mem (s : State) (x : Nibble) (r f : Byte) : (s.setResultAndFlag x r f).mem = s.mem := rfl
@[simp] theorem State.setResultAndFlag_V (s : State) (x : Nibble) (r f : Byte) : (s.setResultAndFlag x r f).V = (s.V.set x.toNat r x.isLt).set VF.toNat f VF.isLt := rfl
@[simp] theorem State.setResultAndFlag_I (s : State) (x : Nibble) (r f : Byte) : (s.setResultAndFlag x r f).I = s.I := rfl
@[simp] theorem State.setResultAndFlag_pc (s : State) (x : Nibble) (r f : Byte) : (s.setResultAndFlag x r f).pc = s.pc := rfl
@[simp] theorem State.setResultAndFlag_stack (s : State) (x : Nibble) (r f : Byte) : (s.setResultAndFlag x r f).stack = s.stack := rfl
@[simp] theorem State.setResultAndFlag_sp (s : State) (x : Nibble) (r f : Byte) : (s.setResultAndFlag x r f).sp = s.sp := rfl
@[simp] theorem State.setResultAndFlag_DT (s : State) (x : Nibble) (r f : Byte) : (s.setResultAndFlag x r f).DT = s.DT := rfl
@[simp] theorem State.setResultAndFlag_ST (s : State) (x : Nibble) (r f : Byte) : (s.setResultAndFlag x r f).ST = s.ST := rfl
@[simp] theorem State.setResultAndFlag_FB (s : State) (x : Nibble) (r f : Byte) : (s.setResultAndFlag x r f).FB = s.FB := rfl
@[simp] theorem State.setResultAndFlag_redraw (s : State) (x : Nibble) (r f : Byte) : (s.setResultAndFlag x r f).redraw = s.redraw := rfl
@[simp] theorem State.setResultAndFlag_keys (s : State) (x : Nibble) (r f : Byte) : (s.setResultAndFlag x r f).keys = s.keys := rfl
@[simp] theorem State.setResultAndFlag_opcode (s : State) (x : Nibble) (r f : Byte) : (s.setResultAndFlag x r f).opcode = s.opcode := rfl
@[simp] theorem State.setResultAndFlag_fault (s : State) (x : Nibble) (r f : Byte) : (s.setResultAndFlag x r f).fault = s.fault := rfl
@[simp] theorem State.setResultAndFlag_draws (s : State) (x : Nibble) (r f : Byte) : (s.setResultAndFlag x r f).draws = s.draws := rfl

end Sys2Proof.Machine
end

