-- ==== Sys2Proof/Laws/Display.lean ====
section
/-!
SUPPORT. Pixels: what a toggle does to every pixel.
-/
namespace Sys2Proof.Machine

@[simp] theorem FrameBuffer.pixel_blank (x : Fin 64) (y : Fin 32) : FrameBuffer.blank.pixel x y = false := by
  simp [FrameBuffer.pixel, FrameBuffer.blank]

/-- A toggle flips its pixel and leaves every other one. -/
theorem FrameBuffer.pixel_toggle (fb : FrameBuffer) (x x' : Fin 64) (y y' : Fin 32) :
    (fb.toggle x y).pixel x' y' = if x' = x ∧ y' = y then !fb.pixel x y else fb.pixel x' y' := by
  by_cases hy : y' = y
  · subst hy
    by_cases hx : x' = x
    · subst hx; simp [FrameBuffer.toggle, FrameBuffer.pixel]
    · have : ¬ x.val = x'.val := fun h => hx (Fin.ext h.symm)
      simp [FrameBuffer.toggle, FrameBuffer.pixel, this, hx]
  · have : ¬ y.val = y'.val := fun h => hy (Fin.ext h.symm)
    simp [FrameBuffer.toggle, FrameBuffer.pixel, this, hy]

/-- Two framebuffers with the same pixels are equal. -/
theorem FrameBuffer.ext_pixel {a b : FrameBuffer} (h : ∀ x y, a.pixel x y = b.pixel x y) : a = b := by
  apply Vector.ext
  intro y hy
  apply Vector.ext
  intro x hx
  exact h ⟨x, hx⟩ ⟨y, hy⟩

/-- Drawing changes FB, VF and `redraw` alone. -/
theorem State.drawSprite_frame (s : State) (x y n : Nibble) :
    s.drawSprite x y n =
      { s with V := (s.drawSprite x y n).V, FB := (s.drawSprite x y n).FB, redraw := true } := rfl

end Sys2Proof.Machine
end

