-- ==== Sys2Proof/Laws/Memory.lean ====
section
/-!
SUPPORT. Memory: every operation keeps the canonical form, and what a read gives after a write.
-/
namespace Sys2Proof.Machine

theorem Memory.initial_of_ge {a : Nat} (h : 4096 ≤ a) : Memory.initial a = 0 := by
  have hl : Config.font.length ≤ a - Config.fontBase := by
    have : Config.font.length = 80 := rfl
    simp only [Config.fontBase]
    omega
  simp [Memory.initial, List.getD, List.getElem?_eq_none hl]

theorem Memory.wfFrom_cons {lo a : Nat} {v : Byte} {m : Memory} :
    Memory.wfFrom lo ((a, v) :: m) = true ↔
      lo ≤ a ∧ a < 4096 ∧ v ≠ Memory.initial a ∧ Memory.wfFrom (a + 1) m = true := by
  simp [Memory.wfFrom, and_assoc]

theorem Memory.wfFrom_mono {m : Memory} {lo lo' : Nat} (h : lo' ≤ lo) (hm : Memory.wfFrom lo m = true) :
    Memory.wfFrom lo' m = true := by
  cases m with
  | nil => rfl
  | cons c m =>
    obtain ⟨h1, h2⟩ := Memory.wfFrom_cons.1 hm
    exact Memory.wfFrom_cons.2 ⟨by omega, h2⟩

/-- Below every listed address a read gives the initial byte. -/
theorem Memory.read_below {m : Memory} {lo a : Nat} (hm : Memory.wfFrom lo m = true) (h : a < lo) :
    m.read a = Memory.initial a := by
  induction m generalizing lo with
  | nil => rfl
  | cons c m ih =>
    obtain ⟨h1, -, -, h4⟩ := Memory.wfFrom_cons.1 hm
    rw [Memory.read, if_neg (by omega)]
    exact ih h4 (by omega)

/-- Above the address space a read gives 0. -/
theorem Memory.read_of_ge {m : Memory} {lo a : Nat} (hm : Memory.wfFrom lo m = true) (h : 4096 ≤ a) : m.read a = 0 := by
  induction m generalizing lo with
  | nil => exact Memory.initial_of_ge h
  | cons c m ih =>
    obtain ⟨-, h2, -, h4⟩ := Memory.wfFrom_cons.1 hm
    rw [Memory.read, if_neg (by omega)]
    exact ih h4

theorem Memory.insert_wfFrom {m : Memory} {lo a : Nat} {v : Byte} (hm : Memory.wfFrom lo m = true) (hlo : lo ≤ a)
    (ha : a < 4096) : Memory.wfFrom lo (m.insert a v) = true := by
  induction m generalizing lo with
  | nil =>
    rw [Memory.insert]
    split
    · rfl
    · exact Memory.wfFrom_cons.2 ⟨hlo, ha, ‹_›, rfl⟩
  | cons c m ih =>
    obtain ⟨b, w⟩ := c
    obtain ⟨h1, h2, h3, h4⟩ := Memory.wfFrom_cons.1 hm
    rw [Memory.insert]
    split
    · split
      · exact hm
      · exact Memory.wfFrom_cons.2 ⟨hlo, ha, ‹_›, Memory.wfFrom_cons.2 ⟨by omega, h2, h3, h4⟩⟩
    · split
      · subst a
        split
        · exact Memory.wfFrom_mono (by omega) h4
        · exact Memory.wfFrom_cons.2 ⟨h1, h2, ‹_›, h4⟩
      · exact Memory.wfFrom_cons.2 ⟨h1, h2, h3, ih h4 (by omega)⟩

/-- A write keeps the canonical form. -/
theorem Memory.write_wf {m : Memory} (hm : m.wf = true) (a : Nat) (v : Byte) : (m.write a v).wf = true := by
  unfold Memory.write
  split
  · exact Memory.insert_wfFrom hm (Nat.zero_le _) ‹_›
  · exact hm

/-- Writing several bytes keeps the canonical form. -/
theorem Memory.writeBytes_wf {m : Memory} (hm : m.wf = true) (a : Nat) (vs : List Byte) :
    (m.writeBytes a vs).wf = true := by
  induction vs generalizing m a with
  | nil => exact hm
  | cons v vs ih => exact ih (Memory.write_wf hm a v) (a + 1)

theorem Memory.read_insert {m : Memory} {lo a : Nat} {v : Byte} (hm : Memory.wfFrom lo m = true) (b : Nat) :
    (m.insert a v).read b = if b = a then v else m.read b := by
  induction m generalizing lo with
  | nil =>
    rw [Memory.insert]
    split <;> rename_i h <;> split <;> simp_all [Memory.read]
  | cons c m ih =>
    obtain ⟨d, w⟩ := c
    obtain ⟨h1, h2, h3, h4⟩ := Memory.wfFrom_cons.1 hm
    have hlow : ∀ e, e ≤ d → Memory.read m e = Memory.initial e := fun e he => Memory.read_below h4 (by omega)
    rw [Memory.insert]
    split
    · split
      · rename_i hv
        split
        · subst b; rw [Memory.read, if_neg (by omega), hlow _ (by omega), hv]
        · rfl
      · simp [Memory.read]
    · split
      · subst a
        split
        · rename_i hv
          split
          · subst b; rw [hlow _ (by omega), hv]
          · rw [Memory.read, if_neg ‹_›]
        · simp only [Memory.read]
          split <;> simp_all
      · rw [Memory.read, Memory.read]
        split
        · rw [if_neg (by omega)]
        · exact ih h4

/-- A read after a write: the byte written at its address, what was there at every other one. -/
theorem Memory.read_write {m : Memory} (hm : m.wf = true) {a : Nat} (ha : a < 4096) (v : Byte) (b : Nat) :
    (m.write a v).read b = if b = a then v else m.read b := by
  rw [Memory.write, if_pos ha]
  exact Memory.read_insert hm b

/-- A read after writing several bytes: the byte written inside the range, what was there outside it. -/
theorem Memory.read_writeBytes {m : Memory} (hm : m.wf = true) {a : Nat} {vs : List Byte} (ha : a + vs.length ≤ 4096)
    (b : Nat) :
    (m.writeBytes a vs).read b = if a ≤ b ∧ b < a + vs.length then vs.getD (b - a) 0 else m.read b := by
  induction vs generalizing m a with
  | nil =>
    rw [if_neg (by simp only [List.length_nil]; omega)]
    rfl
  | cons v vs ih =>
    simp only [List.length_cons] at ha ⊢
    rw [Memory.writeBytes, ih (Memory.write_wf hm a v) (by omega), Memory.read_write hm (by omega)]
    rcases Nat.lt_trichotomy b a with h | h | h
    · rw [if_neg (by omega), if_neg (by omega), if_neg (by omega)]
    · subst h
      rw [if_neg (by omega), if_pos rfl, if_pos (by omega)]
      simp
    · by_cases hb : b < a + (vs.length + 1)
      · rw [if_pos (by omega), if_pos (by omega)]
        obtain ⟨k, hk⟩ : ∃ k, b - a = k + 1 := ⟨b - a - 1, by omega⟩
        have hk' : b - (a + 1) = k := by omega
        rw [hk, hk', List.getD_cons_succ]
      · rw [if_neg (by omega), if_neg (by omega), if_neg (by omega)]

theorem State.reset_mem_wf : State.reset.mem.wf = true := rfl

end Sys2Proof.Machine
end

