-- ==== Sys2Proof/Laws/Ops.lean ====
section
/-!
SUPPORT. One lemma per shared operation that says once everything it can do, and what a step can do.
-/
namespace Sys2Proof.Machine

theorem raise_eq_next {e : FatalError} {s : State} : raise e s = .next { s with fault := some e } := rfl

theorem State.getV_setV (s : State) (x y : Nibble) (v : Byte) :
    (s.setV x v).getV y = if y = x then v else s.getV y := by
  unfold State.getV State.setV
  rw [Vector.getElem_set]
  by_cases h : y = x
  · subst h; simp
  · rw [if_neg h, if_neg]
    exact fun hn => h (BitVec.eq_of_toNat_eq hn.symm)

@[simp] theorem State.getV_setV_same (s : State) (x : Nibble) (v : Byte) : (s.setV x v).getV x = v := by
  rw [State.getV_setV, if_pos rfl]

@[simp] theorem State.getV_advance (s : State) (y : Nibble) : s.advance.getV y = s.getV y := rfl

/-- Writing consecutive registers from `k` on: register `y` gets byte `y - k` of the list where there is one. -/
theorem State.getV_setRegs (s : State) (k : Nat) (vs : List Byte) (hk : k + vs.length ≤ 16) (y : Nibble) :
    (s.setRegs k vs).getV y = if k ≤ y.toNat ∧ y.toNat < k + vs.length then vs.getD (y.toNat - k) 0 else s.getV y := by
  induction vs generalizing s k with
  | nil => rw [if_neg (by simp only [List.length_nil]; omega)]; rfl
  | cons v vs ih =>
    simp only [List.length_cons] at hk ⊢
    have hn : (BitVec.ofNat 4 k).toNat = k := by rw [BitVec.toNat_ofNat]; omega
    rw [State.setRegs, ih _ _ (by omega), State.getV_setV]
    rcases Nat.lt_trichotomy y.toNat k with h | h | h
    · rw [if_neg (by omega), if_neg (fun hy => by rw [hy, hn] at h; omega), if_neg (by omega)]
    · rw [if_neg (by omega), if_pos (BitVec.eq_of_toNat_eq (by rw [hn, h])), if_pos (by omega), h]
      simp
    · by_cases hb : y.toNat < k + (vs.length + 1)
      · rw [if_pos (by omega), if_pos (by omega)]
        obtain ⟨j, hj⟩ : ∃ j, y.toNat - k = j + 1 := ⟨y.toNat - k - 1, by omega⟩
        have hj' : y.toNat - (k + 1) = j := by omega
        rw [hj, hj', List.getD_cons_succ]
      · rw [if_neg (by omega), if_neg (fun hy => by rw [hy, hn] at h; omega), if_neg (by omega)]

/-- Writing consecutive registers changes `V` alone. -/
theorem State.setRegs_frame (s : State) (k : Nat) (vs : List Byte) :
    s.setRegs k vs = { s with V := (s.setRegs k vs).V } := by
  induction vs generalizing s k with
  | nil => rfl
  | cons v vs ih => rw [State.setRegs, ih]; rfl

theorem rangeError_none {i : Word} {n : Nat} : rangeError i n = none ↔ n = 0 ∨ i.toNat + n ≤ 4096 := by
  by_cases h : n = 0 ∨ i.toNat + n ≤ 4096 <;> simp [rangeError, h]

theorem rangeError_some {i : Word} {n a : Nat} :
    rangeError i n = some a ↔ (n ≠ 0 ∧ 4096 < i.toNat + n) ∧ a = max i.toNat 4096 := by
  by_cases h : n = 0 ∨ i.toNat + n ≤ 4096
  · have h' : ¬ (n ≠ 0 ∧ 4096 < i.toNat + n) := by omega
    simp [rangeError, h, h']
  · have h' : n ≠ 0 ∧ 4096 < i.toNat + n := by omega
    simp [rangeError, h', eq_comm]

/-- A ranged access answers a next state: the body where every byte exists, the fatal error of R87 where one does not. -/
theorem withRange_eq (n : Nat) (s body : State) :
    withRange n s body =
      .next (if n = 0 ∨ s.I.toNat + n ≤ 4096 then body
        else { s with fault := some (.memoryOutOfRange (max s.I.toNat 4096)) }) := by
  unfold withRange rangeError
  by_cases h : n = 0 ∨ s.I.toNat + n ≤ 4096 <;> simp [h, raise]

/-- `push` (R41): at depth 16 the overflow, else the entry written and the depth one more. -/
theorem push_eq (v : Word) (s : State) :
    (s.sp.val = 16 ∧ push v s = .error (.stackOverflow s.pc)) ∨
    ∃ h : s.sp.val < 16, push v s =
      .ok { s with stack := s.stack.set s.sp.val v h, sp := ⟨s.sp.val + 1, by omega⟩ } := by
  by_cases h : s.sp.val < 16
  · exact .inr ⟨h, dif_pos h⟩
  · exact .inl ⟨by have := s.sp.isLt; omega, dif_neg h⟩

/-- `pop` (R41): at depth 0 the underflow, else the top entry and the depth one less. -/
theorem pop_eq (s : State) :
    (s.sp.val = 0 ∧ pop s = .error (.stackUnderflow s.pc)) ∨
    ∃ h : 0 < s.sp.val, pop s =
      .ok (s.stack[s.sp.val - 1]'(by omega), { s with sp := ⟨s.sp.val - 1, by omega⟩ }) := by
  by_cases h : 0 < s.sp.val
  · exact .inr ⟨h, dif_pos h⟩
  · exact .inl ⟨by omega, dif_neg h⟩

/-- The key a register names. -/
theorem keyIndex_eq (v : Byte) :
    (15 < v.toNat ∧ keyIndex v = .error (.keyIndexOutOfRange v)) ∨
    ∃ h : v.toNat < 16, keyIndex v = .ok ⟨v.toNat, h⟩ := by
  by_cases h : v.toNat < 16
  · exact .inr ⟨h, dif_pos h⟩
  · exact .inl ⟨by omega, dif_neg h⟩

theorem mem_downKeys {keys : Vector Bool 16} {k : Fin 16} : k ∈ downKeys keys ↔ keys[k] = true := by
  simp [downKeys]

/-- The fetch (R84, R125): the big-endian word where both bytes exist, else the error at the lower missing address. -/
theorem fetchWord_eq (s : State) :
    fetchWord s =
      if s.pc.toNat < 4095 then .ok (bigEndian (s.mem.read s.pc.toNat) (s.mem.read (s.pc.toNat + 1)))
      else .error (.memoryOutOfRange (max s.pc.toNat 4096)) := by
  have hok : ∀ a, a < 4096 → memRead s a = .ok (s.mem.read a) := fun a h => if_pos h
  have herr : ∀ a, ¬ a < 4096 → memRead s a = .error (.memoryOutOfRange a) := fun a h => if_neg h
  by_cases h : s.pc.toNat < 4095
  · simp [fetchWord, hok _ (show s.pc.toNat < 4096 by omega), hok _ (show s.pc.toNat + 1 < 4096 by omega), h]
  · by_cases h' : s.pc.toNat < 4096
    · have e : s.pc.toNat = 4095 := by omega
      simp [fetchWord, hok 4095, herr 4096, e]
    · have e : max s.pc.toNat 4096 = s.pc.toNat := by omega
      simp [fetchWord, herr _ h', h, e]

/-- What a step can do: nothing on a stopped core; a fetch error; an unknown word latched and taken; or the decoded
instruction on the state with its word latched. -/
theorem step_cases (s : State) :
    (∃ e, s.fault = some e ∧ step s = .fault (.stopped e)) ∨
    (s.fault = none ∧ 4095 ≤ s.pc.toNat ∧
      step s = .next { s with fault := some (.memoryOutOfRange (max s.pc.toNat 4096)) }) ∨
    ∃ w, s.fault = none ∧ s.pc.toNat < 4095 ∧
      w = bigEndian (s.mem.read s.pc.toNat) (s.mem.read (s.pc.toNat + 1)) ∧
      ((∃ op, decode w = .unknownOpcode op ∧ step s = .next { s with opcode := w, fault := some (.unknownOpcode op) }) ∨
       ∃ i, decode w = .instr i ∧ step s = exec i (s.latch w)) := by
  unfold step fetchDecode
  cases hf : s.fault with
  | some e => exact .inl ⟨e, rfl, rfl⟩
  | none =>
    rw [fetchWord_eq]
    by_cases hp : s.pc.toNat < 4095
    · refine .inr (.inr ⟨_, rfl, hp, rfl, ?_⟩)
      rw [if_pos hp]
      cases hd : decode (bigEndian (s.mem.read s.pc.toNat) (s.mem.read (s.pc.toNat + 1))) with
      | unknownOpcode op => exact .inl ⟨op, rfl, by simp only [hd]; rfl⟩
      | instr i => exact .inr ⟨i, rfl, by simp only [hd]⟩
    · refine .inr (.inl ⟨rfl, by omega, ?_⟩)
      rw [if_neg hp]
      rfl

/-- Every meaning answers a next state, from every state. -/
theorem exec_next (i : Instr) (s : State) : ∃ t, exec i s = .next t := by
  cases i
  case ret =>
    rcases pop_eq s with ⟨_, hp⟩ | ⟨_, hp⟩ <;> simp only [exec, execRet, hp] <;> exact ⟨_, rfl⟩
  case call =>
    rcases push_eq (s.pc + 2) s with ⟨_, hp⟩ | ⟨_, hp⟩ <;> simp only [exec, execCall, hp] <;> exact ⟨_, rfl⟩
  case skp x =>
    rcases keyIndex_eq (s.getV x) with ⟨_, hp⟩ | ⟨_, hp⟩ <;> simp only [exec, execSkp, hp] <;> exact ⟨_, rfl⟩
  case sknp x =>
    rcases keyIndex_eq (s.getV x) with ⟨_, hp⟩ | ⟨_, hp⟩ <;> simp only [exec, execSknp, hp] <;> exact ⟨_, rfl⟩
  case drw => exact ⟨_, withRange_eq ..⟩
  case ldBVx => exact ⟨_, withRange_eq ..⟩
  case ldMiVx => exact ⟨_, withRange_eq ..⟩
  case ldVxMi => exact ⟨_, withRange_eq ..⟩
  all_goals exact ⟨_, rfl⟩

end Sys2Proof.Machine
end

