-- ==== Sys2Proof/Laws/PerInstr.lean ====
section
/-!
SUPPORT. The family TableRow, about every instruction as syntax: its word belongs to its row of the opcode map.
-/
namespace Sys2Proof.Laws.TableRow

/-- The word of `i` has, under the mask of its row of spec/30_encoding.md R118, the row's value. -/
def Statement (i : Instr) : Prop := encode i &&& i.row.mask = i.row.value

theorem formA_masked (f : Nibble) (addr : Addr) : formA f addr &&& 0xF000 = formA f 0 := by
  ext i hi; interval_cases i <;> simp [formA, place]

theorem formK_masked (f x : Nibble) (kk : Byte) : formK f x kk &&& 0xF000 = formK f 0 0 := by
  ext i hi; interval_cases i <;> simp [formK, place]

theorem formR_masked (f x y n : Nibble) : formR f x y n &&& 0xF00F = formR f 0 0 n := by
  ext i hi; interval_cases i <;> simp [formR, place]

theorem formR_masked_family (f x y n : Nibble) : formR f x y n &&& 0xF000 = formR f 0 0 0 := by
  ext i hi; interval_cases i <;> simp [formR, place]

theorem formU_masked (f x : Nibble) (kk : Byte) : formK f x kk &&& 0xF0FF = formK f 0 kk := by
  ext i hi; interval_cases i <;> simp [formK, place]

theorem formS_masked (f x : Nibble) (kk : Byte) : formK f x kk &&& 0xFF00 = formK f x 0 := by
  ext i hi; interval_cases i <;> simp [formK, place]

theorem cls : Statement (.cls) := by unfold Statement; decide
theorem ret : Statement (.ret) := by unfold Statement; decide
theorem sys (nn : Byte) : Statement (.sys nn) := (formS_masked ..).trans rfl
theorem jp (addr : Addr) : Statement (.jp addr) := (formA_masked ..).trans rfl
theorem call (addr : Addr) : Statement (.call addr) := (formA_masked ..).trans rfl
theorem seVxKk (x : Nibble) (kk : Byte) : Statement (.seVxKk x kk) := (formK_masked ..).trans rfl
theorem sneVxKk (x : Nibble) (kk : Byte) : Statement (.sneVxKk x kk) := (formK_masked ..).trans rfl
theorem seVxVy (x y : Nibble) : Statement (.seVxVy x y) := (formR_masked ..).trans rfl
theorem ldVxKk (x : Nibble) (kk : Byte) : Statement (.ldVxKk x kk) := (formK_masked ..).trans rfl
theorem addVxKk (x : Nibble) (kk : Byte) : Statement (.addVxKk x kk) := (formK_masked ..).trans rfl
theorem ldVxVy (x y : Nibble) : Statement (.ldVxVy x y) := (formR_masked ..).trans rfl
theorem orVxVy (x y : Nibble) : Statement (.orVxVy x y) := (formR_masked ..).trans rfl
theorem andVxVy (x y : Nibble) : Statement (.andVxVy x y) := (formR_masked ..).trans rfl
theorem xorVxVy (x y : Nibble) : Statement (.xorVxVy x y) := (formR_masked ..).trans rfl
theorem addVxVy (x y : Nibble) : Statement (.addVxVy x y) := (formR_masked ..).trans rfl
theorem subVxVy (x y : Nibble) : Statement (.subVxVy x y) := (formR_masked ..).trans rfl
theorem shrVxVy (x y : Nibble) : Statement (.shrVxVy x y) := (formR_masked ..).trans rfl
theorem subnVxVy (x y : Nibble) : Statement (.subnVxVy x y) := (formR_masked ..).trans rfl
theorem shlVxVy (x y : Nibble) : Statement (.shlVxVy x y) := (formR_masked ..).trans rfl
theorem sneVxVy (x y : Nibble) : Statement (.sneVxVy x y) := (formR_masked ..).trans rfl
theorem ldINnn (addr : Addr) : Statement (.ldINnn addr) := (formA_masked ..).trans rfl
theorem jpV0Nnn (addr : Addr) : Statement (.jpV0Nnn addr) := (formA_masked ..).trans rfl
theorem rnd (x : Nibble) (kk : Byte) : Statement (.rnd x kk) := (formK_masked ..).trans rfl
theorem drw (x y n : Nibble) : Statement (.drw x y n) := (formR_masked_family ..).trans rfl
theorem skp (x : Nibble) : Statement (.skp x) := (formU_masked ..).trans rfl
theorem sknp (x : Nibble) : Statement (.sknp x) := (formU_masked ..).trans rfl
theorem ldVxDt (x : Nibble) : Statement (.ldVxDt x) := (formU_masked ..).trans rfl
theorem ldVxK (x : Nibble) : Statement (.ldVxK x) := (formU_masked ..).trans rfl
theorem ldDtVx (x : Nibble) : Statement (.ldDtVx x) := (formU_masked ..).trans rfl
theorem ldStVx (x : Nibble) : Statement (.ldStVx x) := (formU_masked ..).trans rfl
theorem addIVx (x : Nibble) : Statement (.addIVx x) := (formU_masked ..).trans rfl
theorem ldFVx (x : Nibble) : Statement (.ldFVx x) := (formU_masked ..).trans rfl
theorem ldBVx (x : Nibble) : Statement (.ldBVx x) := (formU_masked ..).trans rfl
theorem ldMiVx (x : Nibble) : Statement (.ldMiVx x) := (formU_masked ..).trans rfl
theorem ldVxMi (x : Nibble) : Statement (.ldVxMi x) := (formU_masked ..).trans rfl

end Sys2Proof.Laws.TableRow
end

