-- ==== Sys2Proof/Laws/Ports.lean ====
section
/-!
SUPPORT. One lemma per field of State per host port of Machine/Ports.lean, and what a program load and a transaction can do.
-/
namespace Sys2Proof.Machine

@[simp] theorem State.tick60_mem (s : State) : (s.tick60).mem = s.mem := rfl
@[simp] theorem State.tick60_V (s : State) : (s.tick60).V = s.V := rfl
@[simp] theorem State.tick60_I (s : State) : (s.tick60).I = s.I := rfl
@[simp] theorem State.tick60_pc (s : State) : (s.tick60).pc = s.pc := rfl
@[simp] theorem State.tick60_stack (s : State) : (s.tick60).stack = s.stack := rfl
@[simp] theorem State.tick60_sp (s : State) : (s.tick60).sp = s.sp := rfl
@[simp] theorem State.tick60_DT (s : State) : (s.tick60).DT = tick s.DT := rfl
@[simp] theorem State.tick60_ST (s : State) : (s.tick60).ST = tick s.ST := rfl
@[simp] theorem State.tick60_FB (s : State) : (s.tick60).FB = s.FB := rfl
@[simp] theorem State.tick60_redraw (s : State) : (s.tick60).redraw = s.redraw := rfl
@[simp] theorem State.tick60_keys (s : State) : (s.tick60).keys = s.keys := rfl
@[simp] theorem State.tick60_opcode (s : State) : (s.tick60).opcode = s.opcode := rfl
@[simp] theorem State.tick60_fault (s : State) : (s.tick60).fault = s.fault := rfl
@[simp] theorem State.tick60_draws (s : State) : (s.tick60).draws = s.draws := rfl

@[simp] theorem State.setKey_mem (s : State) (k : Nibble) (b : Bool) : (s.setKey k b).mem = s.mem := rfl
@[simp] theorem State.setKey_V (s : State) (k : Nibble) (b : Bool) : (s.setKey k b).V = s.V := rfl
@[simp] theorem State.setKey_I (s : State) (k : Nibble) (b : Bool) : (s.setKey k b).I = s.I := rfl
@[simp] theorem State.setKey_pc (s : State) (k : Nibble) (b : Bool) : (s.setKey k b).pc = s.pc := rfl
@[simp] theorem State.setKey_stack (s : State) (k : Nibble) (b : Bool) : (s.setKey k b).stack = s.stack := rfl
@[simp] theorem State.setKey_sp (s : State) (k : Nibble) (b : Bool) : (s.setKey k b).sp = s.sp := rfl
@[simp] theorem State.setKey_DT (s : State) (k : Nibble) (b : Bool) : (s.setKey k b).DT = s.DT := rfl
@[simp] theorem State.setKey_ST (s : State) (k : Nibble) (b : Bool) : (s.setKey k b).ST = s.ST := rfl
@[simp] theorem State.setKey_FB (s : State) (k : Nibble) (b : Bool) : (s.setKey k b).FB = s.FB := rfl
@[simp] theorem State.setKey_redraw (s : State) (k : Nibble) (b : Bool) : (s.setKey k b).redraw = s.redraw := rfl
@[simp] theorem State.setKey_keys (s : State) (k : Nibble) (b : Bool) : (s.setKey k b).keys = s.keys.set k.toNat b k.isLt := rfl
@[simp] theorem State.setKey_opcode (s : State) (k : Nibble) (b : Bool) : (s.setKey k b).opcode = s.opcode := rfl
@[simp] theorem State.setKey_fault (s : State) (k : Nibble) (b : Bool) : (s.setKey k b).fault = s.fault := rfl
@[simp] theorem State.setKey_draws (s : State) (k : Nibble) (b : Bool) : (s.setKey k b).draws = s.draws := rfl

@[simp] theorem State.dtWr_mem (s : State) (v : Byte) : (s.dtWr v).mem = s.mem := rfl
@[simp] theorem State.dtWr_V (s : State) (v : Byte) : (s.dtWr v).V = s.V := rfl
@[simp] theorem State.dtWr_I (s : State) (v : Byte) : (s.dtWr v).I = s.I := rfl
@[simp] theorem State.dtWr_pc (s : State) (v : Byte) : (s.dtWr v).pc = s.pc := rfl
@[simp] theorem State.dtWr_stack (s : State) (v : Byte) : (s.dtWr v).stack = s.stack := rfl
@[simp] theorem State.dtWr_sp (s : State) (v : Byte) : (s.dtWr v).sp = s.sp := rfl
@[simp] theorem State.dtWr_DT (s : State) (v : Byte) : (s.dtWr v).DT = v := rfl
@[simp] theorem State.dtWr_ST (s : State) (v : Byte) : (s.dtWr v).ST = s.ST := rfl
@[simp] theorem State.dtWr_FB (s : State) (v : Byte) : (s.dtWr v).FB = s.FB := rfl
@[simp] theorem State.dtWr_redraw (s : State) (v : Byte) : (s.dtWr v).redraw = s.redraw := rfl
@[simp] theorem State.dtWr_keys (s : State) (v : Byte) : (s.dtWr v).keys = s.keys := rfl
@[simp] theorem State.dtWr_opcode (s : State) (v : Byte) : (s.dtWr v).opcode = s.opcode := rfl
@[simp] theorem State.dtWr_fault (s : State) (v : Byte) : (s.dtWr v).fault = s.fault := rfl
@[simp] theorem State.dtWr_draws (s : State) (v : Byte) : (s.dtWr v).draws = s.draws := rfl

@[simp] theorem State.stWr_mem (s : State) (v : Byte) : (s.stWr v).mem = s.mem := rfl
@[simp] theorem State.stWr_V (s : State) (v : Byte) : (s.stWr v).V = s.V := rfl
@[simp] theorem State.stWr_I (s : State) (v : Byte) : (s.stWr v).I = s.I := rfl
@[simp] theorem State.stWr_pc (s : State) (v : Byte) : (s.stWr v).pc = s.pc := rfl
@[simp] theorem State.stWr_stack (s : State) (v : Byte) : (s.stWr v).stack = s.stack := rfl
@[simp] theorem State.stWr_sp (s : State) (v : Byte) : (s.stWr v).sp = s.sp := rfl
@[simp] theorem State.stWr_DT (s : State) (v : Byte) : (s.stWr v).DT = s.DT := rfl
@[simp] theorem State.stWr_ST (s : State) (v : Byte) : (s.stWr v).ST = v := rfl
@[simp] theorem State.stWr_FB (s : State) (v : Byte) : (s.stWr v).FB = s.FB := rfl
@[simp] theorem State.stWr_redraw (s : State) (v : Byte) : (s.stWr v).redraw = s.redraw := rfl
@[simp] theorem State.stWr_keys (s : State) (v : Byte) : (s.stWr v).keys = s.keys := rfl
@[simp] theorem State.stWr_opcode (s : State) (v : Byte) : (s.stWr v).opcode = s.opcode := rfl
@[simp] theorem State.stWr_fault (s : State) (v : Byte) : (s.stWr v).fault = s.fault := rfl
@[simp] theorem State.stWr_draws (s : State) (v : Byte) : (s.stWr v).draws = s.draws := rfl
@[simp] theorem State.redrawRC_state_mem (s : State) : s.redrawRC.2.mem = s.mem := rfl
@[simp] theorem State.redrawRC_state_V (s : State) : s.redrawRC.2.V = s.V := rfl
@[simp] theorem State.redrawRC_state_I (s : State) : s.redrawRC.2.I = s.I := rfl
@[simp] theorem State.redrawRC_state_pc (s : State) : s.redrawRC.2.pc = s.pc := rfl
@[simp] theorem State.redrawRC_state_stack (s : State) : s.redrawRC.2.stack = s.stack := rfl
@[simp] theorem State.redrawRC_state_sp (s : State) : s.redrawRC.2.sp = s.sp := rfl
@[simp] theorem State.redrawRC_state_DT (s : State) : s.redrawRC.2.DT = s.DT := rfl
@[simp] theorem State.redrawRC_state_ST (s : State) : s.redrawRC.2.ST = s.ST := rfl
@[simp] theorem State.redrawRC_state_FB (s : State) : s.redrawRC.2.FB = s.FB := rfl
@[simp] theorem State.redrawRC_state_redraw (s : State) : s.redrawRC.2.redraw = false := rfl
@[simp] theorem State.redrawRC_state_keys (s : State) : s.redrawRC.2.keys = s.keys := rfl
@[simp] theorem State.redrawRC_state_opcode (s : State) : s.redrawRC.2.opcode = s.opcode := rfl
@[simp] theorem State.redrawRC_state_fault (s : State) : s.redrawRC.2.fault = s.fault := rfl
@[simp] theorem State.redrawRC_state_draws (s : State) : s.redrawRC.2.draws = s.draws := rfl

/-- The program load (R355, R307): the copy where the buffer fits, else its length and no state. -/
theorem State.loadProgram_eq (s : State) (bytes : List Byte) :
    s.loadProgram bytes =
      if bytes.length ≤ 3584 then .ok (s.storeBytes 0x200 bytes) else .programTooLarge bytes.length := by
  by_cases h : bytes.length ≤ 3584
  · rw [if_pos h]; exact if_neg (Nat.not_lt.mpr h)
  · rw [if_neg h]; exact if_pos (Nat.not_le.mp h)

/-- What the host's transactions do to the core and to the one LOAD, and what they answer (R330). -/
theorem Session.transact_cases {τ : Transaction} {c d : Session} {r : Response} (h : c.transact τ = .next (d, r)) :
    (τ = .step ∧ d.loadOpen = false ∧
      ((Sys2Proof.Machine.step c.core = .next d.core ∧ r = stepResponse d.core) ∨
        ∃ e, Sys2Proof.Machine.step c.core = .fault (.stopped e) ∧ d.core = c.core ∧ r = .fault e)) ∨
    (τ = .tick60 ∧ d = { c with core := c.core.tick60 } ∧ r = .none) ∨
    (∃ k b, τ = .setKey k b ∧ k < 16 ∧ d = { c with core := c.core.setKey (BitVec.ofNat 4 k) b } ∧ r = .none) ∨
    (∃ bytes, τ = .load bytes ∧ c.loadOpen = true ∧ d.loadOpen = false ∧
      ((bytes.length ≤ 3584 ∧ d.core = c.core.storeBytes 0x200 bytes ∧ r = .ok) ∨
        (3584 < bytes.length ∧ d.core = c.core ∧ r = .programTooLarge bytes.length))) ∨
    (τ = .redrawRC ∧ d = { c with core := c.core.redrawRC.2 } ∧ r = .flag c.core.redraw) ∨
    (∃ v, τ = .dtWr v ∧ d = { c with core := c.core.dtWr v } ∧ r = .none) ∨
    (∃ v, τ = .stWr v ∧ d = { c with core := c.core.stWr v } ∧ r = .none) ∨
    (d = c ∧ ((τ = .fbRead ∧ r = .pixels c.core.fbRead) ∨ (τ = .dtRd ∧ r = .byte c.core.DT) ∨
      (τ = .stRd ∧ r = .byte c.core.ST) ∨ (τ = .status ∧ r = .snapshot c.core.status))) := by
  cases τ with
  | step =>
    simp only [Session.transact, Session.step] at h
    split at h <;> cases h
    · exact .inl ⟨rfl, rfl, .inl ⟨by assumption, rfl⟩⟩
    · exact .inl ⟨rfl, rfl, .inr ⟨_, by assumption, rfl, rfl⟩⟩
  | tick60 => cases h; simp
  | setKey k b =>
    simp only [Session.transact, Session.setKey] at h
    split at h <;> cases h
    exact .inr (.inr (.inl ⟨k, b, rfl, by assumption, rfl, rfl⟩))
  | load bytes =>
    simp only [Session.transact, Session.load, State.loadProgram_eq] at h
    refine .inr (.inr (.inr (.inl ⟨bytes, rfl, ?_⟩)))
    by_cases ho : c.loadOpen = true
    · by_cases hl : bytes.length ≤ 3584
      · rw [if_pos ho, if_pos hl] at h; cases h; exact ⟨ho, rfl, .inl ⟨hl, rfl, rfl⟩⟩
      · rw [if_pos ho, if_neg hl] at h; cases h; exact ⟨ho, rfl, .inr ⟨Nat.not_le.mp hl, rfl, rfl⟩⟩
    · rw [if_neg ho] at h; cases h
  | redrawRC => cases h; simp [State.redrawRC]
  | dtWr v => cases h; simp
  | stWr v => cases h; simp
  | fbRead => cases h; simp
  | dtRd => cases h; simp
  | stRd => cases h; simp
  | status => cases h; simp

end Sys2Proof.Machine
end

