-- ==== Sys2Proof/Machine/Asm.lean ====
section
/-!
DEFINITION. The assembler spelling of every instruction: the table of spec/30_encoding.md R122. No meaning reads it.
-/
namespace Sys2Proof.Machine

/-- One hexadecimal digit. -/
def hexDigit (n : Nibble) : Char := "0123456789ABCDEF".toList.getD n.toNat '?'

/-- `Vx` is `V0`..`VF` (R122). -/
def asmReg (x : Nibble) : List Char := ['V', hexDigit x]

/-- `n`: a nibble in hexadecimal (R122), as the programs of spec/95_test_vectors.md write it. -/
def asmNibble (n : Nibble) : List Char := [hexDigit n]

/-- `kk`: a byte in hexadecimal (R122). -/
def asmByte (kk : Byte) : List Char := ['0', 'x', hexDigit (kk.extractLsb' 4 4), hexDigit (kk.extractLsb' 0 4)]

/-- `nnn`: a 12-bit address in hexadecimal (R122). -/
def asmAddr (a : Addr) : List Char :=
  ['0', 'x', hexDigit (a.extractLsb' 8 4), hexDigit (a.extractLsb' 4 4), hexDigit (a.extractLsb' 0 4)]

/-- A mnemonic and its operands, a comma between two of them. -/
def asmLine (mnemonic : String) : List (List Char) → List Char
  | [] => mnemonic.toList
  | a :: rest => mnemonic.toList ++ ' ' :: a ++ (rest.map fun o => ',' :: ' ' :: o).flatten

/-- The spelling of R122, as characters. A shift whose Y is 0 is spelled without its second operand. -/
def asmSyntax : Instr → List Char
  | .cls => asmLine "CLS" []
  | .ret => asmLine "RET" []
  | .sys nn => asmLine "SYS" [asmByte nn]
  | .jp addr => asmLine "JP" [asmAddr addr]
  | .call addr => asmLine "CALL" [asmAddr addr]
  | .seVxKk x kk => asmLine "SE" [asmReg x, asmByte kk]
  | .sneVxKk x kk => asmLine "SNE" [asmReg x, asmByte kk]
  | .seVxVy x y => asmLine "SE" [asmReg x, asmReg y]
  | .ldVxKk x kk => asmLine "LD" [asmReg x, asmByte kk]
  | .addVxKk x kk => asmLine "ADD" [asmReg x, asmByte kk]
  | .ldVxVy x y => asmLine "LD" [asmReg x, asmReg y]
  | .orVxVy x y => asmLine "OR" [asmReg x, asmReg y]
  | .andVxVy x y => asmLine "AND" [asmReg x, asmReg y]
  | .xorVxVy x y => asmLine "XOR" [asmReg x, asmReg y]
  | .addVxVy x y => asmLine "ADD" [asmReg x, asmReg y]
  | .subVxVy x y => asmLine "SUB" [asmReg x, asmReg y]
  | .shrVxVy x y => asmLine "SHR" (if y = 0 then [asmReg x] else [asmReg x, asmReg y])
  | .subnVxVy x y => asmLine "SUBN" [asmReg x, asmReg y]
  | .shlVxVy x y => asmLine "SHL" (if y = 0 then [asmReg x] else [asmReg x, asmReg y])
  | .sneVxVy x y => asmLine "SNE" [asmReg x, asmReg y]
  | .ldINnn addr => asmLine "LD" [['I'], asmAddr addr]
  | .jpV0Nnn addr => asmLine "JP" [asmReg 0, asmAddr addr]
  | .rnd x kk => asmLine "RND" [asmReg x, asmByte kk]
  | .drw x y n => asmLine "DRW" [asmReg x, asmReg y, asmNibble n]
  | .skp x => asmLine "SKP" [asmReg x]
  | .sknp x => asmLine "SKNP" [asmReg x]
  | .ldVxDt x => asmLine "LD" [asmReg x, ['D', 'T']]
  | .ldVxK x => asmLine "LD" [asmReg x, ['K']]
  | .ldDtVx x => asmLine "LD" [['D', 'T'], asmReg x]
  | .ldStVx x => asmLine "LD" [['S', 'T'], asmReg x]
  | .addIVx x => asmLine "ADD" [['I'], asmReg x]
  | .ldFVx x => asmLine "LD" [['F'], asmReg x]
  | .ldBVx x => asmLine "LD" [['B'], asmReg x]
  | .ldMiVx x => asmLine "LD" [['[', 'I', ']'], asmReg x]
  | .ldVxMi x => asmLine "LD" [asmReg x, ['[', 'I', ']']]

end Sys2Proof.Machine
end

