-- ==== Sys2Proof/Tests/Slice0.lean ====
section
/-!
SUPPORT. Tests. Every expected value is from the spec: the encodings of spec/30_encoding.md R112 and R118 written out bit by bit, and
the vectors of spec/95_test_vectors.md, whose id a test's comment names. After them, for every statement with hypotheses, a witness
that meets them.
-/
namespace Sys2Proof.Tests

open Sys2Proof Sys2Proof.Machine Sys2Proof.Claims

/-! ### Well-formedness and decoding -/

theorem test_sys_00E0_is_ill_formed : (Instr.sys 0xE0).wellFormed = false := by decide
theorem test_sys_00EE_is_ill_formed : (Instr.sys 0xEE).wellFormed = false := by decide
theorem test_sys_beside_them_is_well_formed :
    (Instr.sys 0xE1).wellFormed = true ∧ (Instr.sys 0xED).wellFormed = true ∧ (Instr.sys 0xFF).wellFormed = true := by decide

/-- R112, R118: 40_control.md's instructions. -/
theorem test_decode_control :
    decode 0b0000_0000_1110_1110 = .instr .ret ∧
    decode 0b0000_0000_1110_0001 = .instr (.sys 0xE1) ∧
    decode 0b0001_0010_0000_0100 = .instr (.jp 0x204) ∧
    decode 0b0010_0011_0101_0110 = .instr (.call 0x356) ∧
    decode 0b1011_1111_1110_1101 = .instr (.jpV0Nnn 0xFED) ∧
    decode 0b0011_1010_0101_1100 = .instr (.seVxKk 0xA 0x5C) ∧
    decode 0b0100_1010_0101_1100 = .instr (.sneVxKk 0xA 0x5C) ∧
    decode 0b0101_0001_0010_0000 = .instr (.seVxVy 0x1 0x2) ∧
    decode 0b1001_0001_0010_0000 = .instr (.sneVxVy 0x1 0x2) := by decide

/-- R112, R118: 41_alu.md's instructions. -/
theorem test_decode_alu :
    decode 0b0110_1010_1001_1100 = .instr (.ldVxKk 0xA 0x9C) ∧
    decode 0b0111_1011_0000_0001 = .instr (.addVxKk 0xB 0x01) ∧
    decode 0b1000_0001_0010_0000 = .instr (.ldVxVy 0x1 0x2) ∧
    decode 0b1000_0001_0010_0001 = .instr (.orVxVy 0x1 0x2) ∧
    decode 0b1000_0001_0010_0010 = .instr (.andVxVy 0x1 0x2) ∧
    decode 0b1000_0001_0010_0011 = .instr (.xorVxVy 0x1 0x2) ∧
    decode 0b1000_0001_0010_0100 = .instr (.addVxVy 0x1 0x2) ∧
    decode 0b1000_0001_0010_0101 = .instr (.subVxVy 0x1 0x2) ∧
    decode 0b1000_0001_0010_0110 = .instr (.shrVxVy 0x1 0x2) ∧
    decode 0b1000_0001_0010_0111 = .instr (.subnVxVy 0x1 0x2) ∧
    decode 0b1000_0001_0010_1110 = .instr (.shlVxVy 0x1 0x2) ∧
    decode 0b1100_0011_0000_1111 = .instr (.rnd 0x3 0x0F) := by decide

/-- R112, R118: 42_index_memory.md's instructions. -/
theorem test_decode_index_memory :
    decode 0b1010_0011_0000_0001 = .instr (.ldINnn 0x301) ∧
    decode 0b1111_0101_0001_1110 = .instr (.addIVx 0x5) ∧
    decode 0b1111_0010_0010_1001 = .instr (.ldFVx 0x2) ∧
    decode 0b1111_1010_0011_0011 = .instr (.ldBVx 0xA) ∧
    decode 0b1111_0010_0101_0101 = .instr (.ldMiVx 0x2) ∧
    decode 0b1111_0010_0110_0101 = .instr (.ldVxMi 0x2) := by decide

/-- R112, R118: 43_display.md's and 44_keys_timers.md's instructions. -/
theorem test_decode_display_keys_timers :
    decode 0b0000_0000_1110_0000 = .instr .cls ∧
    decode 0b1101_0001_0010_0101 = .instr (.drw 0x1 0x2 0x5) ∧
    decode 0b1110_0111_1001_1110 = .instr (.skp 0x7) ∧
    decode 0b1110_0111_1010_0001 = .instr (.sknp 0x7) ∧
    decode 0b1111_0011_0000_0111 = .instr (.ldVxDt 0x3) ∧
    decode 0b1111_0011_0000_1010 = .instr (.ldVxK 0x3) ∧
    decode 0b1111_0100_0001_0101 = .instr (.ldDtVx 0x4) ∧
    decode 0b1111_0100_0001_1000 = .instr (.ldStVx 0x4) := by decide

/-- R119's list, a word of each line: TC4, TC5, TC22, TC24, TA27, TA28, TK6, TK13, TK14. -/
theorem test_decode_rejects :
    decode 0x0100 = .unknownOpcode 0x0100 ∧ decode 0x01E0 = .unknownOpcode 0x01E0 ∧
    decode 0x5121 = .unknownOpcode 0x5121 ∧ decode 0x912F = .unknownOpcode 0x912F ∧
    decode 0x8018 = .unknownOpcode 0x8018 ∧ decode 0x801F = .unknownOpcode 0x801F ∧
    decode 0xE19F = .unknownOpcode 0xE19F ∧ decode 0xF000 = .unknownOpcode 0xF000 ∧
    decode 0xFFFF = .unknownOpcode 0xFFFF := by decide

/-- R84, R110: the high byte stands first, and a lone byte is no instruction. -/
theorem test_decode_bytes :
    decodeBytes [0x12, 0x04, 0x70] = .instr (.jp 0x204) [0x70] ∧ decodeBytes [0x12] = .truncated [0x12] ∧
    decodeBytes [] = .truncated [] ∧ decodeBytes [0x01, 0xE0] = .unknownOpcode 0x01E0 ∧
    encodeBytes (.drw 0x1 0x2 0x5) = [0xD1, 0x25] := by decide

/-- R118: 35 rows, no two of which share a word beside rows 1 and 2, which are cases of row 3. -/
theorem test_rows_do_not_overlap :
    opcodeMap.length = 35 ∧
    ((opcodeMap.filter (· ≠ Instr.row (.sys 0))).Pairwise fun p q =>
      p.value &&& (p.mask &&& q.mask) ≠ q.value &&& (p.mask &&& q.mask)) := by decide

/-- R122, with the spelling of the programs of 95_test_vectors.md. -/
theorem test_asm :
    asmSyntax (.jp 0x204) = "JP 0x204".toList ∧ asmSyntax (.ldVxKk 0xA 0x9C) = "LD VA, 0x9C".toList ∧
    asmSyntax (.drw 0 1 2) = "DRW V0, V1, 2".toList ∧ asmSyntax (.ldMiVx 2) = "LD [I], V2".toList ∧
    asmSyntax (.shrVxVy 2 0) = "SHR V2".toList ∧ asmSyntax .cls = "CLS".toList := by decide

/-! ### Single steps: a state beside reset, the word at `pc`, and items of the state after -/

/-- The state after a step that runs the word `w`. -/
def after (s : State) (w : Nat) : Option State :=
  match step (s.withFetchWord 16 w) with
  | .next t => some t
  | .fault _ => none
  | .refused _ => none

/-- One item of it. -/
def item {α : Type} (s : State) (w : Nat) (f : State → α) : Option α := (after s w).map f

/-- The error a step takes. -/
def errorOf (s : State) (w : Nat) : Option FatalError := (after s w).bind State.fault

/-- Reset with two registers set. -/
def regs (x : Nibble) (v : Byte) (y : Nibble) (w : Byte) : State := (State.reset.setV x v).setV y w

/-- TC2. -/
theorem test_sys : item .reset 0x00E1 (fun t => (t.pc, t.redraw, t.fault)) = some (0x202, false, none) := by decide
/-- TC14. -/
theorem test_ret : item { State.reset with sp := 2, stack := (State.reset.stack.set 0 0x222).set 1 0x246 } 0x00EE
    (fun t => (t.pc, t.sp, t.stack[1])) = some (0x246, 1, 0x246) := by decide
/-- TC13. -/
theorem test_ret_underflow : item .reset 0x00EE (fun t => (t.fault, t.pc, t.sp, t.opcode)) =
    some (some (.stackUnderflow 0x200), 0x200, 0, 0x00EE) := by decide
/-- TC6. -/
theorem test_jp : item .reset 0x1204 State.pc = some 0x204 := by decide
/-- TC8. -/
theorem test_jp_to_the_last_byte : item .reset 0x1FFF State.pc = some 0xFFF := by decide
/-- TC12. -/
theorem test_call : item { State.reset with sp := 15 } 0x2300 (fun t => (t.pc, t.sp, t.stack[15])) =
    some (0x300, 16, 0x202) := by decide
/-- TC11. -/
theorem test_call_overflow : item { State.reset with sp := 16 } 0x2300 (fun t => (t.fault, t.pc, t.sp)) =
    some (some (.stackOverflow 0x200), 0x200, 16) := by decide
/-- TC16. -/
theorem test_jp_v0 : item (State.reset.setV 0 0xFF) 0xBFFF State.pc = some 0x10FE := by decide
/-- TC17. -/
theorem test_jp_v0_takes_v0 : item (State.reset.setV 1 0xFF) 0xB300 State.pc = some 0x300 := by decide
/-- TC18. -/
theorem test_se_kk : item (State.reset.setV 3 0x05) 0x3305 State.pc = some 0x204 := by decide
/-- TC19. -/
theorem test_se_kk_not_equal : item (State.reset.setV 3 0x04) 0x3305 State.pc = some 0x202 := by decide
/-- TC20. -/
theorem test_sne_kk : item .reset 0x4001 State.pc = some 0x204 := by decide
/-- S4. -/
theorem test_sne_kk_equal : item .reset 0x4000 State.pc = some 0x202 := by decide
/-- TC21. -/
theorem test_se_vy : item (regs 1 0x7F 2 0x7F) 0x5120 State.pc = some 0x204 := by decide
/-- TC23. -/
theorem test_sne_vy : item (regs 1 1 2 2) 0x9120 State.pc = some 0x204 := by decide
/-- S4. -/
theorem test_sne_vy_equal : item .reset 0x9010 State.pc = some 0x202 := by decide

/-- TA1. -/
theorem test_ld_kk : item .reset 0x6A9C (State.getV · 0xA) = some 0x9C := by decide
/-- TA2. -/
theorem test_add_kk : item (State.reset.setV 0 0xFF) 0x7001 (fun t => (t.getV 0, t.getV 0xF)) = some (0, 0) := by decide
/-- TA3. -/
theorem test_add_kk_to_vf : item (State.reset.setV 0xF 0xFF) 0x7F01 (State.getV · 0xF) = some 0 := by decide
/-- TA4. -/
theorem test_ld_vy : item (State.reset.setV 1 0x33) 0x8010 (State.getV · 0) = some 0x33 := by decide
/-- TA5. -/
theorem test_or : item ((regs 0 0xF0 1 0x0F).setV 0xF 1) 0x8011 (fun t => (t.getV 0, t.getV 0xF)) = some (0xFF, 1) := by decide
/-- TA6. -/
theorem test_and : item (regs 0 0xF0 1 0x3C) 0x8012 (State.getV · 0) = some 0x30 := by decide
/-- TA7. -/
theorem test_xor : item (regs 0 0xF0 1 0x3C) 0x8013 (State.getV · 0) = some 0xCC := by decide
/-- TA8. -/
theorem test_add : item (regs 0 0xC8 1 0x64) 0x8014 (fun t => (t.getV 0, t.getV 0xF)) = some (0x2C, 1) := by decide
/-- TA12. -/
theorem test_add_to_vf : item (regs 0xF 0xFF 1 0x01) 0x8F14 (State.getV · 0xF) = some 1 := by decide
/-- TA15. -/
theorem test_sub_equal : item (regs 0 0x07 1 0x07) 0x8015 (fun t => (t.getV 0, t.getV 0xF)) = some (0, 0) := by decide
/-- TA17. -/
theorem test_sub_from_vf : item (regs 0 0x05 0xF 0x03) 0x80F5 (fun t => (t.getV 0, t.getV 0xF)) = some (0x02, 1) := by decide
/-- TA19. -/
theorem test_shr_ignores_y : item (regs 2 0x04 3 0xFF) 0x8236 (fun t => (t.getV 2, t.getV 0xF)) = some (0x02, 0) := by decide
/-- TA20. -/
theorem test_shr_of_vf : item (State.reset.setV 0xF 0x03) 0x8F06 (State.getV · 0xF) = some 1 := by decide
/-- TA21. -/
theorem test_subn : item (regs 0 0x03 1 0x05) 0x8017 (fun t => (t.getV 0, t.getV 0xF)) = some (0x02, 1) := by decide
/-- TA22. -/
theorem test_subn_borrow : item (regs 0 0x05 1 0x03) 0x8017 (fun t => (t.getV 0, t.getV 0xF)) = some (0xFE, 0) := by decide
/-- TA24. -/
theorem test_shl : item (State.reset.setV 2 0x81) 0x820E (fun t => (t.getV 2, t.getV 0xF)) = some (0x02, 1) := by decide
/-- TA26. -/
theorem test_shl_of_vf : item (State.reset.setV 0xF 0x40) 0x8F0E (State.getV · 0xF) = some 0 := by decide
/-- TA29, the byte drawn being 0xA7. -/
theorem test_rnd : (rndWith 0xA7 3 0x0F .reset).getV 3 = 0x07 := by decide

/-- TM2. -/
theorem test_ld_i : item { State.reset with I := 0x123 } 0xA000 State.I = some 0 := by decide
/-- TM4. -/
theorem test_add_i_wraps : item { State.reset.setV 0 1 with I := 0xFFFF } 0xF01E (fun t => (t.I, t.getV 0xF)) = some (0, 0) := by
  decide
/-- TM5. -/
theorem test_add_i_is_not_masked : item { State.reset.setV 0 1 with I := 0x0FFF } 0xF01E (fun t => (t.I, t.fault)) =
    some (0x1000, none) := by decide
/-- TM6. -/
theorem test_ld_f : item (State.reset.setV 2 0x0A) 0xF229 State.I = some 0x0082 := by decide
/-- TM9. -/
theorem test_ld_f_is_not_masked : item (State.reset.setV 0 0xFF) 0xF029 State.I = some 0x054B := by decide
/-- TM10. -/
theorem test_bcd : item { State.reset.setV 0xA 0x9C with I := 0x300 } 0xFA33
    (fun t => (t.mem.read 0x300, t.mem.read 0x301, t.mem.read 0x302, t.I)) = some (1, 5, 6, 0x300) := by decide
/-- TM15. -/
theorem test_bcd_out_of_range : errorOf { State.reset with I := 0xFFE } 0xF033 = some (.memoryOutOfRange 0x1000) := by decide
/-- TM16. -/
theorem test_store : item { (regs 0 1 1 2).setV 2 3 with I := 0x400 } 0xF255
    (fun t => (t.mem.read 0x400, t.mem.read 0x401, t.mem.read 0x402, t.I)) = some (1, 2, 3, 0x400) := by decide
/-- TM23. -/
theorem test_store_over_the_font : item { State.reset.setV 0 5 with I := 0x050 } 0xF055
    (fun t => (t.mem.read 0x050, t.mem.read 0x051)) = some (5, 0x90) := by decide
/-- TM22. -/
theorem test_load_reaches_vf : item { State.reset with I := 0x300, mem := Memory.write [] 0x30F 0x77 } 0xFF65
    (fun t => (t.getV 0xF, t.getV 0xE, t.I)) = some (0x77, 0, 0x300) := by decide
/-- TM24. -/
theorem test_load_out_of_range : errorOf { State.reset with I := 0x1234 } 0xF265 = some (.memoryOutOfRange 0x1234) := by decide

/-- TD1. -/
theorem test_cls : item { State.reset with FB := State.reset.FB.toggle 3 4 } 0x00E0
    (fun t => (t.FB.pixel 3 4, t.redraw)) = some (false, true) := by decide +kernel
/-- TD2 and the last column and row. -/
theorem test_drw : item { regs 0 62 1 31 with I := 0x300, mem := Memory.write [] 0x300 0xC0 } 0xD011
    (fun t => (t.FB.pixel 62 31, t.FB.pixel 63 31, t.FB.pixel 0 31, t.getV 0xF, t.redraw)) =
    some (true, true, false, 0, true) := by decide +kernel
/-- TD13. -/
theorem test_drw_latches_its_position : item { State.reset.setV 0xF 10 with
      I := 0x300, mem := Memory.write [] 0x300 0xC0, FB := State.reset.FB.toggle 10 0 } 0xDF01
    (fun t => (t.FB.pixel 10 0, t.FB.pixel 11 0, t.getV 0xF)) = some (false, true, 1) := by decide +kernel

/-- TK1. -/
theorem test_skp : item { State.reset.setV 1 7 with keys := State.reset.keys.set 7 true } 0xE19E State.pc = some 0x204 := by decide
/-- TK5. -/
theorem test_skp_index : errorOf (State.reset.setV 1 0x10) 0xE19E = some (.keyIndexOutOfRange 0x10) := by decide
/-- TK3. -/
theorem test_sknp : item (State.reset.setV 1 7) 0xE1A1 State.pc = some 0x204 := by decide
/-- TK4. -/
theorem test_sknp_down : item { State.reset.setV 1 7 with keys := State.reset.keys.set 7 true } 0xE1A1 State.pc = some 0x202 := by
  decide
/-- TK7. -/
theorem test_ld_vx_dt : item { State.reset with DT := 0x3C } 0xF307 (State.getV · 3) = some 0x3C := by decide
/-- TK8. -/
theorem test_key_wait : waitKeyWith 0 0 .reset = .reset := by decide
/-- TK9 and TK10. -/
theorem test_key_capture :
    selectKey 5 (State.reset.keys.set 0xC true) = some 0xC ∧
    selectKey 0 ((State.reset.keys.set 3 true).set 9 true) = some 3 ∧
    selectKey 1 ((State.reset.keys.set 3 true).set 9 true) = some 9 := by decide
/-- TK11. -/
theorem test_ld_dt : item (State.reset.setV 0 7) 0xF015 (fun t => (t.DT, t.ST)) = some (7, 0) := by decide
/-- TK12. -/
theorem test_ld_st : item (State.reset.setV 4 0x1E) 0xF418 (fun t => (t.ST, t.DT)) = some (0x1E, 0) := by decide

/-! ### Fetch, stop, construction and ports -/

/-- TF3. -/
theorem test_unknown_opcode : item (State.reset.setV 0 9) 0x5121 (fun t => (t.fault, t.opcode, t.getV 0, t.pc)) =
    some (some (.unknownOpcode 0x5121), 0x5121, 9, 0x200) := by decide
/-- TC25. -/
theorem test_skip_past_the_end : item { State.reset with pc := 0xFFE } 0x3000 State.pc = some 0x1002 := by decide
/-- TC26. -/
theorem test_fetch_at_the_last_byte : (match step { State.reset with pc := 0xFFF } with
    | .next t => (t.fault, t.opcode) | .fault _ => (none, 1) | .refused _ => (none, 1)) =
    (some (.memoryOutOfRange 0x1000), 0) := by decide
/-- S9: the step from reset with nothing loaded. -/
theorem test_first_step : (match step State.reset with
    | .next t => some (t.pc, t.fault) | .fault _ => none | .refused _ => none) = some (0x202, none) := by decide
/-- TF1. -/
theorem test_stopped : (match step { State.reset with fault := some (.stackUnderflow 0x200) } with
    | .next _ => none | .fault e => some e | .refused _ => none) = some (.stopped (.stackUnderflow 0x200)) := by decide
/-- S10. -/
theorem test_font : State.reset.mem.read 0x050 = 0xF0 ∧ State.reset.mem.read 0x09F = 0x80 ∧ State.reset.mem.read 0x0A0 = 0 ∧
    State.reset.mem.read 0x04F = 0 := by decide
/-- TT2. -/
theorem test_tick : (State.tick60 (State.tick60 { State.reset with DT := 1, ST := 5 })) =
    { State.reset with DT := 0, ST := 3 } := by decide
/-- TT4. -/
theorem test_set_key : State.reset.setKey 5 true = { State.reset with keys := State.reset.keys.set 5 true } := by decide
/-- TF6. -/
theorem test_load : (match State.reset.loadProgram [0x12, 0x00] with
    | .ok t => some (t.mem.read 0x200, t.mem.read 0x201, t.mem.read 0x202) | .programTooLarge _ => none) =
    some (0x12, 0x00, 0) := by decide
/-- TF5: the port answers, and the core is as it was. -/
theorem test_load_too_large : (match Session.transact (.load (List.replicate 3585 0)) ⟨State.reset, true⟩ with
    | .next (d, r) => some (d.core, r) | .fault _ => none | .refused _ => none) =
    some (State.reset, .programTooLarge 3585) := by decide +kernel
/-- S8: the step that takes the error answers it. -/
theorem test_step_port_answers_the_fault :
    (match Session.transact .step ⟨State.reset.withFetchWord 16 0x00EE, false⟩ with
    | .next (d, r) => some (d.core.pc, r) | .fault _ => none | .refused _ => none) =
    some (0x200, .fault (.stackUnderflow 0x200)) := by decide
/-- R330: a stopped core's STEP answers code 3 of R300 (TF1). -/
theorem test_error_code : errorCode (.fault (.stackUnderflow 0x200)) = some 3 ∧ errorCode (.programTooLarge 3585) = some 16 := by
  decide
/-- The host's two questions, on row 35. -/
theorem test_decode_table_word : decodeTableWord 16 0xF265 = some (.ldVxMi 2) := by decide

/-! ### Witnesses: for each statement with hypotheses, states and operands that meet them -/

/-- The word read at `pc`, as the statements write it. -/
def wordAt (s : State) : Word := bigEndian (s.mem.read s.pc.toNat) (s.mem.read (s.pc.toNat + 1))

/-- Reset with `pc` at the last address a word can be fetched from, and a word there. -/
def lastWord (w : Nat) : State := ({ State.reset with pc := 0xFFE } : State).withFetchWord 16 w

theorem witness_DecodeInvertsEncode :
    (Instr.sys 0xE1).wellFormed = true ∧ (Instr.drw 0xF 0xF 0xF).wellFormed = true ∧ (Instr.jp 0xFFF).wellFormed = true := by decide

theorem witness_EncodeInvertsDecode :
    decode 0x0000 = .instr (.sys 0) ∧ decode 0x00FF = .instr (.sys 0xFF) ∧ decode 0xFF65 = .instr (.ldVxMi 0xF) := by decide

theorem witness_UnlistedWordsRaiseUnknownOpcode :
    ((lastWord 0x0100).fault = none ∧ (lastWord 0x0100).pc.toNat < 4095 ∧ 0x0100 = wordAt (lastWord 0x0100) ∧ unlisted 0x0100) ∧
    (State.reset.withFetchWord 16 0x5121).fault = none ∧ (State.reset.withFetchWord 16 0x5121).pc.toNat < 4095 ∧
      0x5121 = wordAt (State.reset.withFetchWord 16 0x5121) ∧ unlisted 0x5121 := by
  unfold unlisted; decide

theorem witness_StepRunsTheDecodedInstruction :
    ((lastWord 0xFF65).fault = none ∧ (lastWord 0xFF65).pc.toNat < 4095 ∧
      decode (wordAt (lastWord 0xFF65)) = .instr (.ldVxMi 0xF)) ∧
    State.reset.fault = none ∧ State.reset.pc.toNat < 4095 ∧ decode (wordAt State.reset) = .instr (.sys 0) := by decide

theorem witness_StepErrorsComeInOrder :
    ({ State.reset with fault := some (.stackOverflow 0x200) } : State).fault = some (.stackOverflow 0x200) ∧
    (({ State.reset with pc := 0x1000 } : State).fault = none ∧ 4096 ≤ ({ State.reset with pc := 0x1000 } : State).pc.toNat) ∧
    4096 ≤ ({ State.reset with pc := 0xFFFF } : State).pc.toNat ∧
    ({ State.reset with pc := 0xFFF } : State).pc.toNat = 4095 ∧
    (lastWord 0xFFFF).fault = none ∧ (lastWord 0xFFFF).pc.toNat < 4095 ∧ 0xFFFF = wordAt (lastWord 0xFFFF) ∧
      decode 0xFFFF = .unknownOpcode 0xFFFF := by decide

theorem witness_FatalErrorsArePrecise :
    (∃ t, (lastWord 0x00EE).fault = none ∧ step (lastWord 0x00EE) = .next t ∧ t.fault = some (.stackUnderflow 0xFFE) ∧
      (lastWord 0x00EE).pc.toNat < 4095) ∧
    ∃ t, step { State.reset with pc := 0xFFF } = .next t ∧ t.fault = some (.memoryOutOfRange 4096) ∧
      4095 ≤ ({ State.reset with pc := 0xFFF } : State).pc.toNat :=
  ⟨⟨{ lastWord 0x00EE with opcode := 0x00EE, fault := some (.stackUnderflow 0xFFE) }, by decide, rfl, rfl, by decide⟩,
   ⟨{ State.reset with pc := 0xFFF, fault := some (.memoryOutOfRange 4096) }, rfl, rfl, by decide⟩⟩

theorem witness_EachInstructionRaisesItsOwnError :
    State.reset.fault = none ∧
    (∃ t, exec (.call 0x300) { State.reset with sp := 16 } = .next t ∧ t.fault = some (.stackOverflow 0x200)) ∧
    (∃ t, exec .ret State.reset = .next t ∧ t.fault = some (.stackUnderflow 0x200)) ∧
    (∃ t, exec (.ldBVx 0) { State.reset with I := 0xFFE } = .next t ∧ t.fault = some (.memoryOutOfRange 4096)) ∧
    (∃ t, exec (.drw 0 0 1) { State.reset with I := 0x1000 } = .next t ∧ t.fault = some (.memoryOutOfRange 4096)) ∧
    ∃ t, exec (.skp 1) (State.reset.setV 1 16) = .next t ∧ t.fault = some (.keyIndexOutOfRange 16) :=
  ⟨rfl, ⟨_, rfl, rfl⟩, ⟨_, rfl, rfl⟩, ⟨_, rfl, rfl⟩, ⟨_, rfl, rfl⟩, ⟨_, rfl, rfl⟩⟩

/-- A session whose core is stopped. -/
def stoppedSession : Session := ⟨{ State.reset with fault := some (.stackUnderflow 0x200) }, false⟩

theorem witness_StoppedCoreStaysStopped :
    stoppedSession.core.fault = some (.stackUnderflow 0x200) ∧
    (∃ d r, stoppedSession.transact .status = .next (d, r)) ∧
    (∀ b, Transaction.setKey 15 true ≠ .load b) ∧ ∀ k b, Transaction.setKey 15 true = .setKey k b → k ≤ 15 := by
  refine ⟨rfl, ⟨_, _, rfl⟩, fun _ h => Transaction.noConfusion h, fun k b h => ?_⟩
  injection h with hk _
  omega

theorem witness_EveryStepKeepsTheInvariant :
    State.reset.Inv ∧ (∃ t, step State.reset = .next t) ∧ ∃ t, exec .ret State.reset = .next t ∧ t.fault ≠ none :=
  ⟨⟨rfl, trivial⟩, ⟨_, rfl⟩, ⟨_, rfl, nofun⟩⟩

theorem witness_EveryRunKeepsTheInvariant :
    State.reset.Inv ∧ ∃ d, Session.run [.step, .tick60, .setKey 15 true] ⟨State.reset, true⟩ = .next d :=
  ⟨⟨rfl, trivial⟩, ⟨_, rfl⟩⟩

theorem witness_ConstructionGivesTheResetTable :
    (0x04F < 0x050) ∧ (0x0A0 ≤ 0x0A0 ∧ 0x0A0 < 4096) ∧ (0x0A0 ≤ 0xFFF ∧ 0xFFF < 4096) := by decide

theorem witness_SysOnlyAdvances :
    ((0x0000 : Word) &&& 0xFF00 = 0x0000 ∧ (0x0000 : Word) ≠ 0x00E0 ∧ (0x0000 : Word) ≠ 0x00EE) ∧
    ((0x00FF : Word) &&& 0xFF00 = 0x0000 ∧ (0x00FF : Word) ≠ 0x00E0 ∧ (0x00FF : Word) ≠ 0x00EE) ∧
    (fieldFamily 0x0100 = 0 ∧ fieldX 0x0100 ≠ 0) ∧ fieldFamily 0x0FEE = 0 ∧ fieldX 0x0FEE ≠ 0 := by decide

theorem witness_RetPopsOrUnderflows :
    ({ State.reset with sp := 1 } : State).sp = (0 : Fin 16).succ ∧
    ({ State.reset with sp := 16 } : State).sp = (15 : Fin 16).succ ∧ State.reset.sp = 0 := by decide

theorem witness_JpSetsPc :
    (0x1000 : Word) &&& 0xF000 = 0x1000 ∧ (0x1FFF : Word) &&& 0xF000 = 0x1000 ∧
    State.reset.fault = none ∧ 0xFFF ≤ (0xFFF : Addr).toNat := by decide

theorem witness_CallPushesOrOverflows :
    (0x2000 : Word) &&& 0xF000 = 0x2000 ∧ (0x2FFF : Word) &&& 0xF000 = 0x2000 ∧
    State.reset.sp = (0 : Fin 16).castSucc ∧ ({ State.reset with sp := 15 } : State).sp = (15 : Fin 16).castSucc ∧
    ({ State.reset with sp := 16 } : State).sp = 16 := by decide

theorem witness_JpV0AddsV0 :
    (0xB000 : Word) &&& 0xF000 = 0xB000 ∧ (0xBFFF : Word) &&& 0xF000 = 0xB000 ∧
    State.reset.fault = none ∧ 0x0FFF ≤ (0xF00 : Addr).toNat + ((State.reset.setV 0 0xFF).getV 0).toNat := by decide

theorem witness_SkipsOnAnImmediate :
    (0x3000 : Word) &&& 0xF000 = 0x3000 ∧ (0x3FFF : Word) &&& 0xF000 = 0x3000 ∧
    (0x4000 : Word) &&& 0xF000 = 0x4000 ∧ (0x4FFF : Word) &&& 0xF000 = 0x4000 ∧
    State.reset.fault = none ∧ ({ State.reset with pc := 0xFFC } : State).pc = 0xFFC := by decide

theorem witness_SkipsOnRegisters :
    (0x5000 : Word) &&& 0xF00F = 0x5000 ∧ (0x5FF0 : Word) &&& 0xF00F = 0x5000 ∧
    (0x9000 : Word) &&& 0xF00F = 0x9000 ∧ (0x9FF0 : Word) &&& 0xF00F = 0x9000 ∧
    ((fieldFamily 0x5001 = 5 ∨ fieldFamily 0x5001 = 9) ∧ fieldN 0x5001 ≠ 0) ∧
    (fieldFamily 0x900F = 5 ∨ fieldFamily 0x900F = 9) ∧ fieldN 0x900F ≠ 0 := by decide

/-- The encodings of the statements LoadsOfAByteAndOfARegister, AddImmediateSetsNoFlag, LogicSetsNoFlag, AddRegistersSetsCarry,
SubtractionsFlagStrictlyGreater, ShiftsByOneFlagTheLostBit and RndMasksAFreshDraw. -/
theorem witness_alu_encodings :
    (0x6000 : Word) &&& 0xF000 = 0x6000 ∧ (0x6FFF : Word) &&& 0xF000 = 0x6000 ∧
    (0x7000 : Word) &&& 0xF000 = 0x7000 ∧ (0x7FFF : Word) &&& 0xF000 = 0x7000 ∧
    (0x8FF0 : Word) &&& 0xF00F = 0x8000 ∧ (0x8FF1 : Word) &&& 0xF00F = 0x8001 ∧
    (0x8FF2 : Word) &&& 0xF00F = 0x8002 ∧ (0x8FF3 : Word) &&& 0xF00F = 0x8003 ∧
    (0x8FF4 : Word) &&& 0xF00F = 0x8004 ∧ (0x8FF5 : Word) &&& 0xF00F = 0x8005 ∧
    (0x8FF6 : Word) &&& 0xF00F = 0x8006 ∧ (0x8FF7 : Word) &&& 0xF00F = 0x8007 ∧
    (0x8FFE : Word) &&& 0xF00F = 0x800E ∧ (0xCFFF : Word) &&& 0xF000 = 0xC000 := by decide

/-- The encodings of IndexFromAnAddressOrAGlyph, AddToIndexWrapsAt16Bits, DelayTimerMovesToAndFromRegisters and
SoundTimerIsWrittenAndNeverRead. -/
theorem witness_index_and_timer_encodings :
    (0xAFFF : Word) &&& 0xF000 = 0xA000 ∧ (0xFF29 : Word) &&& 0xF0FF = 0xF029 ∧ (0xFF1E : Word) &&& 0xF0FF = 0xF01E ∧
    (0xFF07 : Word) &&& 0xF0FF = 0xF007 ∧ (0xFF15 : Word) &&& 0xF0FF = 0xF015 ∧ (0xFF18 : Word) &&& 0xF0FF = 0xF018 := by decide

theorem witness_SoundTimerIsWrittenAndNeverRead : ∃ t, exec (.ldStVx 4) (State.reset.setV 4 0x1E) = .next t := ⟨_, rfl⟩

theorem witness_BcdStoresThreeDigits :
    (0xFF33 : Word) &&& 0xF0FF = 0xF033 ∧ State.reset.mem.wf = true ∧
    ({ State.reset with I := 0xFFD } : State).I.toNat + 2 < 4096 ∧ 4096 ≤ ({ State.reset with I := 0xFFE } : State).I.toNat + 2 ∧
    (0xFFC < ({ State.reset with I := 0xFFD } : State).I.toNat ∨ ({ State.reset with I := 0xFFD } : State).I.toNat + 2 < 0xFFC) := by
  decide

theorem witness_RegisterStoreIsInclusive :
    (0xFF55 : Word) &&& 0xF0FF = 0xF055 ∧ State.reset.mem.wf = true ∧
    ({ State.reset with I := 0xFF0 } : State).I.toNat + (0xF : Nibble).toNat < 4096 ∧
    4096 ≤ ({ State.reset with I := 0xFF1 } : State).I.toNat + (0xF : Nibble).toNat ∧
    (0xF : Nibble).toNat ≤ (0xF : Nibble).toNat ∧
    (0xFEF < ({ State.reset with I := 0xFF0 } : State).I.toNat ∨
      ({ State.reset with I := 0xFF0 } : State).I.toNat + (0xF : Nibble).toNat < 0xFEF) := by decide

theorem witness_RegisterLoadIsInclusive :
    (0xFF65 : Word) &&& 0xF0FF = 0xF065 ∧
    ({ State.reset with I := 0xFF1 } : State).I.toNat + (0xE : Nibble).toNat < 4096 ∧
    4096 ≤ ({ State.reset with I := 0xFF2 } : State).I.toNat + (0xE : Nibble).toNat ∧
    (0xE : Nibble).toNat ≤ (0xE : Nibble).toNat ∧ (0xE : Nibble).toNat < (0xF : Nibble).toNat := by decide

/-- Reset with a sprite of one pixel at the end of memory. -/
def dot : State := { State.reset with I := 0xFFF, mem := Memory.write [] 0xFFF 0x80 }

theorem witness_DrawXorsTheSprite :
    (0xDFFF : Word) &&& 0xF000 = 0xD000 ∧
    ((0 : Nibble) = 0 ∨ ({ State.reset with I := 0xFFFF } : State).I.toNat + (0 : Nibble).toNat ≤ 4096) ∧
    ((1 : Nibble) = 0 ∨ dot.I.toNat + (1 : Nibble).toNat ≤ 4096) ∧
    (covers dot 0 0 1 0 0 = true ∧ ({ dot with FB := dot.FB.toggle 0 0 } : State).FB.pixel 0 0 = true) ∧
    (∀ px py, covers State.reset 0 0 0 px py = true → State.reset.FB.pixel px py = false) ∧
    (0xE : Nibble) ≠ 0xF ∧ (2 : Nibble) ≠ 0 ∧ 4096 < dot.I.toNat + (2 : Nibble).toNat := by
  refine ⟨by decide, .inl rfl, by decide, by decide +kernel, ?_, by decide, by decide, by decide⟩
  intro px py h
  exact absurd h (by simp [covers])

theorem witness_DrawingTwiceRestoresTheFramebuffer :
    ((1 : Nibble) = 0 ∨ dot.I.toNat + (1 : Nibble).toNat ≤ 4096) ∧ (∃ px py, covers dot 0 0 1 px py = true) ∧
    ∃ t u, exec (.drw 0 0 1) dot = .next t ∧ exec (.drw 0 0 1) t = .next u ∧
      (t.getV 0).toNat % 64 = (dot.getV 0).toNat % 64 := by
  refine ⟨by decide, ⟨0, 0, by decide +kernel⟩, (dot.drawSprite 0 0 1).advance,
    ((dot.drawSprite 0 0 1).advance.drawSprite 0 0 1).advance, rfl, rfl, by decide +kernel⟩

theorem witness_KeySkipsTestTheLevel :
    (0xEF9E : Word) &&& 0xF0FF = 0xE09E ∧ (0xEFA1 : Word) &&& 0xF0FF = 0xE0A1 ∧
    ((State.reset.setV 1 15).getV 1).toNat = (15 : Fin 16).val ∧ 15 < ((State.reset.setV 1 16).getV 1).toNat := by decide

theorem witness_KeyWaitCapturesADownKey :
    (0xFF0A : Word) &&& 0xF0FF = 0xF00A ∧ (∀ k : Fin 16, State.reset.keys[k] = false) ∧
    ∃ k : Fin 16, (State.reset.setKey 15 true).keys[k] = true := by decide

theorem witness_RegistersChangeOnlyByTheTable :
    (∃ t, exec (.addVxVy 0 1) State.reset = .next t) ∧ ¬ mayWriteV (.addVxVy 0 1) 0xE ∧ ¬ mayWriteV (.ldVxMi 0xE) 0xF ∧
    ∃ t, exec (.ldVxMi 0xE) State.reset = .next t :=
  ⟨⟨_, rfl⟩, by simp [mayWriteV], by simp [mayWriteV], ⟨_, rfl⟩⟩

theorem witness_OtherStateChangesOnlyByItsWriters :
    (∃ t, exec (.ldINnn 0x300) State.reset = .next t ∧ t.I ≠ State.reset.I) ∧
    (∃ t, exec (.call 0x300) State.reset = .next t ∧ t.stack ≠ State.reset.stack ∧ t.sp ≠ State.reset.sp) ∧
    (∃ t, exec (.ldDtVx 0) (State.reset.setV 0 7) = .next t ∧ t.DT ≠ State.reset.DT) ∧
    (∃ t, exec (.ldStVx 0) (State.reset.setV 0 7) = .next t ∧ t.ST ≠ State.reset.ST) ∧
    (∃ t, exec .cls ({ State.reset with FB := State.reset.FB.toggle 0 0 } : State) = .next t ∧
      t.FB ≠ State.reset.FB.toggle 0 0 ∧ t.redraw ≠ State.reset.redraw) := by
  refine ⟨⟨_, rfl, by decide⟩, ⟨_, rfl, by decide, by decide⟩, ⟨_, rfl, by decide⟩, ⟨_, rfl, by decide⟩,
    ⟨_, rfl, by decide +kernel, by decide⟩⟩

theorem witness_MemoryChangesOnlyInTheStoredRange :
    State.reset.mem.wf = true ∧ (∃ t, exec (.ldMiVx 0xF) ({ State.reset with I := 0xFF0 } : State) = .next t) ∧
    (0xFEF < ({ State.reset with I := 0xFF0 } : State).I.toNat ∨
      ({ State.reset with I := 0xFF0 } : State).I.toNat + storedLength (.ldMiVx 0xF) ≤ 0xFEF) ∧
    (∃ t, exec .cls State.reset = .next t) ∧ (0 < State.reset.I.toNat ∨ State.reset.I.toNat + storedLength .cls ≤ 0) :=
  ⟨rfl, ⟨_, rfl⟩, by decide, ⟨_, rfl⟩, by decide⟩

theorem witness_FallThroughAdvancesPcByTwo :
    State.reset.fault = none ∧ (∃ t, exec .ret State.reset = .next t ∧ t.fault ≠ none) ∧
    (∃ t, exec .cls State.reset = .next t ∧ t.fault = none) ∧ ¬ setsPcItself .cls :=
  ⟨rfl, ⟨_, rfl, nofun⟩, ⟨_, rfl, rfl⟩, by simp [setsPcItself]⟩

theorem witness_RedrawAndLatchAreNeverRead : ∃ t, exec .cls State.reset = .next t := ⟨_, rfl⟩

theorem witness_CallThenReturnComesBack : State.reset.sp ≠ 16 ∧ ({ State.reset with sp := 15 } : State).sp ≠ 16 := by decide

theorem witness_StoredBytesAreFetched :
    State.reset.mem.wf = true ∧
    (({ State.reset with I := 0xFF0 } : State).I.toNat + (0xF : Nibble).toNat < 4096 ∧
      ∃ t u : State, exec (.ldMiVx 0xF) { State.reset with I := 0xFF0 } = .next t ∧ u.mem = t.mem ∧ u.pc.toNat < 4095 ∧
        (0xE : Nibble).toNat ≤ (0xF : Nibble).toNat ∧ u.pc.toNat = 0xFF0 + (0xE : Nibble).toNat ∧
        u.pc.toNat + 1 = 0xFF0 + (0xF : Nibble).toNat) ∧
    ({ State.reset with I := 0xFFD } : State).I.toNat + 2 < 4096 ∧
      ∃ t u : State, exec (.ldBVx 0) { State.reset with I := 0xFFD } = .next t ∧ u.mem = t.mem ∧ u.pc.toNat < 4095 ∧
        u.pc.toNat = 0xFFD + (1 : Fin 3).val ∧ u.pc.toNat + 1 = 0xFFD + (2 : Fin 3).val :=
  ⟨rfl, ⟨by decide, ⟨_, { State.reset with pc := 0xFFE }, rfl, rfl, by decide, by decide, by decide, by decide⟩⟩, by decide,
    ⟨_, { State.reset with pc := 0xFFE }, rfl, rfl, by decide, by decide, by decide⟩⟩

theorem witness_IdleStatesStayAsTheyAre : (State.reset.withFetchWord 16 0x1200).idle = true := by decide

theorem witness_TimersTickAndFloorAtZero :
    (∃ d r, Session.transact .step ⟨State.reset, true⟩ = .next (d, r)) ∧ Transaction.step ≠ .tick60 ∧
    ∃ d r, Session.transact (.dtWr 9) ⟨State.reset, true⟩ = .next (d, r) ∧ Transaction.dtWr 9 ≠ .tick60 :=
  ⟨⟨_, _, rfl⟩, by decide, ⟨_, _, rfl, by decide⟩⟩

theorem witness_SetKeyWritesOneKey : 15 < 16 := by decide

theorem witness_LoadCopiesUpToTheLimit :
    (Session.start ⟨Config.font.toArray, rfl⟩).loadOpen = true ∧
    State.reset.mem.wf = true ∧ (List.replicate 3584 (0xFF : Byte)).length ≤ 3584 ∧ 3583 < (List.replicate 3584 (0xFF : Byte)).length ∧
    3584 < (List.replicate 3585 (0xFF : Byte)).length ∧ (0x1FF < 0x200 ∨ 0x200 + (List.replicate 3584 (0xFF : Byte)).length ≤ 0x1FF) ∧
    (0x1000 < 0x200 ∨ 0x200 + (List.replicate 3584 (0xFF : Byte)).length ≤ 0x1000) := by
  refine ⟨rfl, rfl, ?_⟩
  simp only [List.length_replicate]; decide

theorem witness_LoadIsAdmittedOnce :
    (⟨State.reset, true⟩ : Session).loadOpen = true ∧ stoppedSession.loadOpen = false ∧
    ∃ d r, Session.transact .status ⟨State.reset, true⟩ = .next (d, r) :=
  ⟨rfl, rfl, ⟨_, _, rfl⟩⟩

theorem witness_StepPortAnswersOkOrTheFault :
    (∃ t, State.reset.fault = none ∧ step State.reset = .next t ∧ t.fault = none) ∧
    ∃ t, (lastWord 0x00EE).fault = none ∧ step (lastWord 0x00EE) = .next t ∧ t.fault = some (.stackUnderflow 0xFFE) :=
  ⟨⟨_, rfl, rfl, rfl⟩, ⟨{ lastWord 0x00EE with opcode := 0x00EE, fault := some (.stackUnderflow 0xFFE) }, by decide, rfl, rfl⟩⟩

end Sys2Proof.Tests
end

section
/-!
Control transfer (spec/40_control.md): SYS of R141 and the register skips of R148 and R149.
-/
namespace Sys2Proof.Claims

open Sys2Proof.Machine

/-! ### Decoding family 0, and families 5 and 9 by their low nibble -/

theorem decode_eq_sys {op : Word} (hfamily : fieldFamily op = 0x0#4) (hX : fieldX op = 0x0#4)
    (hcls : op ≠ 0x00E0#16) (hret : op ≠ 0x00EE#16) : decode op = .instr (.sys (fieldKK op)) := by
  rw [decode_family0 hfamily, decodeFamily0, if_neg hcls, if_neg hret, if_pos hX]

/-- CLS and RET have X = 0, so a word of family 0 with another X is none of the three patterns. -/
theorem decode_family0_unknown {op : Word} (hfamily : fieldFamily op = 0x0#4) (hX : fieldX op ≠ 0x0#4) :
    decode op = .unknownOpcode op := by
  have hcls : op ≠ 0x00E0#16 := by
    rintro rfl
    exact hX (by decide)
  have hret : op ≠ 0x00EE#16 := by
    rintro rfl
    exact hX (by decide)
  rw [decode_family0 hfamily, decodeFamily0, if_neg hcls, if_neg hret, if_neg hX]

theorem encoding_seVxVy : Encoding 0xF00F 0x5000 (fun op => .seVxVy (fieldX op) (fieldY op)) := by
  intro op h
  have hfamily : fieldFamily op = 0x5#4 := fieldFamily_of_mask h (by decide)
  have hN : fieldN op = 0x0#4 := fieldN_of_mask h (by decide)
  rw [decode_family5 hfamily, if_pos hN]

theorem encoding_sneVxVy : Encoding 0xF00F 0x9000 (fun op => .sneVxVy (fieldX op) (fieldY op)) := by
  intro op h
  have hfamily : fieldFamily op = 0x9#4 := fieldFamily_of_mask h (by decide)
  have hN : fieldN op = 0x0#4 := fieldN_of_mask h (by decide)
  rw [decode_family9 hfamily, if_pos hN]

/-! ### The meanings, as the operation on the state each of them is -/

@[simp] theorem exec_sys (nn : Byte) (s : State) : exec (.sys nn) s = .next s.advance := rfl

@[simp] theorem exec_seVxVy (x y : Nibble) (s : State) :
    exec (.seVxVy x y) s = .next (s.skipIf (s.getV x == s.getV y)) := rfl

@[simp] theorem exec_sneVxVy (x y : Nibble) (s : State) :
    exec (.sneVxVy x y) s = .next (s.skipIf (s.getV x != s.getV y)) := rfl

/-- `skipIf` writes pc alone, on a condition given as a proposition. -/
theorem skipIf_eq_of_iff {P : Prop} [Decidable P] {c : Bool} (s : State) (h : c = true ↔ P) :
    s.skipIf c = { s with pc := s.pc + if P then 4 else 2 } := by
  simp only [State.skipIf, h]

/-! ### The statements -/

/-- Settles O16: a mask of 0xFF00 fixes the family and X at 0, where only CLS and RET come before SYS. -/
theorem sysOnlyAdvances : Obligations.SysOnlyAdvances := by
  refine ⟨fun op hmask hcls hret => ?_, fun op => decode_family0_unknown, fun nn s => exec_sys nn s⟩
  have hfamily : fieldFamily op = 0x0#4 := fieldFamily_of_mask hmask (by decide)
  have hX : fieldX op = 0x0#4 := fieldX_of_mask hmask (by decide)
  exact decode_eq_sys hfamily hX hcls hret

/-- Settles O22: families 5 and 9 compare the low nibble with 0, and both meanings are `skipIf` on a comparison of
the two registers. -/
theorem skipsOnRegisters : Obligations.SkipsOnRegisters := by
  refine ⟨encoding_seVxVy, encoding_sneVxVy, fun op hfamily hN => ?_, fun x y s => ?_, fun x y s => ?_⟩
  · obtain h5 | h9 := hfamily
    · exact (decode_family5 h5).trans (if_neg hN)
    · exact (decode_family9 h9).trans (if_neg hN)
  · rw [exec_seVxVy, skipIf_eq_of_iff s beq_iff_eq]
  · rw [exec_sneVxVy, skipIf_eq_of_iff s bne_iff_ne]

end Sys2Proof.Claims
end

section
/-!
The register and ALU instructions (spec/41_alu.md, R170 to R181): loads, additions, logic, subtractions and shifts.
-/
namespace Sys2Proof.Claims

open Sys2Proof.Machine

/-! ### Decoding families 6 and 7, and family 8 by its low nibble -/

theorem encoding_ldVxKk : Encoding 0xF000 0x6000 (fun op => .ldVxKk (fieldX op) (fieldKK op)) := by
  intro op h
  have hfamily : fieldFamily op = 0x6#4 := fieldFamily_of_mask h (by decide)
  exact decode_family6 hfamily

theorem encoding_addVxKk : Encoding 0xF000 0x7000 (fun op => .addVxKk (fieldX op) (fieldKK op)) := by
  intro op h
  have hfamily : fieldFamily op = 0x7#4 := fieldFamily_of_mask h (by decide)
  exact decode_family7 hfamily

/-- In family 8 the low nibble alone chooses the operation. -/
theorem encoding_family8 {v : Word} {n : Nibble} {f : Word → Instr} (hfamily : fieldFamily v = 0x8#4) (hn : fieldN v = n)
    (hf : ∀ op, fieldN op = n → decodeFamily8 op = .instr (f op)) : Encoding 0xF00F v f := by
  intro op h
  have hop : fieldFamily op = 0x8#4 := (fieldFamily_of_mask h (by decide)).trans hfamily
  have hN : fieldN op = n := (fieldN_of_mask h (by decide)).trans hn
  rw [decode_family8 hop, hf op hN]

theorem encoding_ldVxVy : Encoding 0xF00F 0x8000 (fun op => .ldVxVy (fieldX op) (fieldY op)) :=
  encoding_family8 (n := 0x0) (by decide) (by decide) fun op hN => by simp [decodeFamily8, hN]

theorem encoding_orVxVy : Encoding 0xF00F 0x8001 (fun op => .orVxVy (fieldX op) (fieldY op)) :=
  encoding_family8 (n := 0x1) (by decide) (by decide) fun op hN => by simp [decodeFamily8, hN]

theorem encoding_andVxVy : Encoding 0xF00F 0x8002 (fun op => .andVxVy (fieldX op) (fieldY op)) :=
  encoding_family8 (n := 0x2) (by decide) (by decide) fun op hN => by simp [decodeFamily8, hN]

theorem encoding_xorVxVy : Encoding 0xF00F 0x8003 (fun op => .xorVxVy (fieldX op) (fieldY op)) :=
  encoding_family8 (n := 0x3) (by decide) (by decide) fun op hN => by simp [decodeFamily8, hN]

theorem encoding_addVxVy : Encoding 0xF00F 0x8004 (fun op => .addVxVy (fieldX op) (fieldY op)) :=
  encoding_family8 (n := 0x4) (by decide) (by decide) fun op hN => by simp [decodeFamily8, hN]

theorem encoding_subVxVy : Encoding 0xF00F 0x8005 (fun op => .subVxVy (fieldX op) (fieldY op)) :=
  encoding_family8 (n := 0x5) (by decide) (by decide) fun op hN => by simp [decodeFamily8, hN]

theorem encoding_shrVxVy : Encoding 0xF00F 0x8006 (fun op => .shrVxVy (fieldX op) (fieldY op)) :=
  encoding_family8 (n := 0x6) (by decide) (by decide) fun op hN => by simp [decodeFamily8, hN]

theorem encoding_subnVxVy : Encoding 0xF00F 0x8007 (fun op => .subnVxVy (fieldX op) (fieldY op)) :=
  encoding_family8 (n := 0x7) (by decide) (by decide) fun op hN => by simp [decodeFamily8, hN]

theorem encoding_shlVxVy : Encoding 0xF00F 0x800E (fun op => .shlVxVy (fieldX op) (fieldY op)) :=
  encoding_family8 (n := 0xE) (by decide) (by decide) fun op hN => by simp [decodeFamily8, hN]

/-! ### The meanings, as the operation on the state each of them is -/

@[simp] theorem exec_ldVxKk (x : Nibble) (kk : Byte) (s : State) :
    exec (.ldVxKk x kk) s = .next (s.setV x kk).advance := rfl

@[simp] theorem exec_addVxKk (x : Nibble) (kk : Byte) (s : State) :
    exec (.addVxKk x kk) s = .next (s.setV x (s.getV x + kk)).advance := rfl

@[simp] theorem exec_ldVxVy (x y : Nibble) (s : State) :
    exec (.ldVxVy x y) s = .next (s.setV x (s.getV y)).advance := rfl

@[simp] theorem exec_orVxVy (x y : Nibble) (s : State) :
    exec (.orVxVy x y) s = .next (s.setV x (s.getV x ||| s.getV y)).advance := rfl

@[simp] theorem exec_andVxVy (x y : Nibble) (s : State) :
    exec (.andVxVy x y) s = .next (s.setV x (s.getV x &&& s.getV y)).advance := rfl

@[simp] theorem exec_xorVxVy (x y : Nibble) (s : State) :
    exec (.xorVxVy x y) s = .next (s.setV x (s.getV x ^^^ s.getV y)).advance := rfl

@[simp] theorem exec_addVxVy (x y : Nibble) (s : State) : exec (.addVxVy x y) s =
    .next (s.setResultAndFlag x (s.getV x + s.getV y) (carryFlag (s.getV x) (s.getV y))).advance := rfl

@[simp] theorem exec_subVxVy (x y : Nibble) (s : State) : exec (.subVxVy x y) s =
    .next (s.setResultAndFlag x (s.getV x - s.getV y) (greaterFlag (s.getV x) (s.getV y))).advance := rfl

@[simp] theorem exec_subnVxVy (x y : Nibble) (s : State) : exec (.subnVxVy x y) s =
    .next (s.setResultAndFlag x (s.getV y - s.getV x) (greaterFlag (s.getV y) (s.getV x))).advance := rfl

@[simp] theorem exec_shrVxVy (x y : Nibble) (s : State) : exec (.shrVxVy x y) s =
    .next (s.setResultAndFlag x (s.getV x >>> 1) (lowBitFlag (s.getV x))).advance := rfl

@[simp] theorem exec_shlVxVy (x y : Nibble) (s : State) : exec (.shlVxVy x y) s =
    .next (s.setResultAndFlag x (s.getV x <<< 1) (highBitFlag (s.getV x))).advance := rfl

/-- A register write and the advance touch one register and pc alone. -/
theorem setV_advance_eq (s : State) (x : Nibble) (v : Byte) :
    (s.setV x v).advance = { s with V := s.V.set x.toNat v x.isLt, pc := s.pc + 2 } := rfl

/-- The two writes of R170 and the advance touch V[X], then VF, and pc alone. -/
theorem setResultAndFlag_advance_eq (s : State) (x : Nibble) (result flag : Byte) :
    (s.setResultAndFlag x result flag).advance =
      { s with V := (s.V.set x.toNat result x.isLt).set 15 flag, pc := s.pc + 2 } := rfl

/-! ### Results and flags as numbers -/

theorem byte_add_eq (a b : Byte) : a + b = BitVec.ofNat 8 ((a.toNat + b.toNat) % 256) := by
  apply BitVec.eq_of_toNat_eq
  rw [BitVec.toNat_add, BitVec.toNat_ofNat]
  omega

theorem byte_sub_eq (a b : Byte) : a - b = BitVec.ofNat 8 ((256 + a.toNat - b.toNat) % 256) := by
  apply BitVec.eq_of_toNat_eq
  rw [BitVec.toNat_sub, BitVec.toNat_ofNat]
  omega

theorem byte_shiftRight_one_eq (a : Byte) : a >>> 1 = BitVec.ofNat 8 (a.toNat / 2) := by
  apply BitVec.eq_of_toNat_eq
  rw [BitVec.toNat_ushiftRight, BitVec.toNat_ofNat, Nat.shiftRight_one]
  omega

theorem byte_shiftLeft_one_eq (a : Byte) : a <<< 1 = BitVec.ofNat 8 (a.toNat * 2 % 256) := by
  apply BitVec.eq_of_toNat_eq
  rw [BitVec.toNat_shiftLeft, BitVec.toNat_ofNat, Nat.shiftLeft_eq]
  omega

theorem carryFlag_eq (a b : Byte) : carryFlag a b = if 255 < a.toNat + b.toNat then 1 else 0 := by
  simp only [carryFlag, flagByte, decide_eq_true_eq, gt_iff_lt]

theorem greaterFlag_eq (a b : Byte) : greaterFlag a b = if b.toNat < a.toNat then 1 else 0 := by
  simp only [greaterFlag, flagByte, decide_eq_true_eq, gt_iff_lt]

/-- The low bit of a byte, masked out by 1. -/
theorem byte_and_one_eq (a : Byte) : a &&& 1 = if a.getLsbD 0 then 1 else 0 := by
  have hbit : a &&& 1#8 = (BitVec.ofBool (a.getLsbD 0)).setWidth 8 := BitVec.and_one_eq_setWidth_ofBool_getLsbD
  refine hbit.trans ?_
  cases a.getLsbD 0 <;> rfl

theorem lowBitFlag_eq (a : Byte) : lowBitFlag a = if a.getLsbD 0 then 1 else 0 := byte_and_one_eq a

theorem highBitFlag_eq (a : Byte) : highBitFlag a = if a.getLsbD 7 then 1 else 0 := by
  rw [highBitFlag, byte_and_one_eq, BitVec.getLsbD_ushiftRight]

/-! ### The statements -/

/-- Settles O23: both loads are one register write. -/
theorem loadsOfAByteAndOfARegister : Obligations.LoadsOfAByteAndOfARegister := by
  refine ⟨encoding_ldVxKk, encoding_ldVxVy, fun x kk s => ?_, fun x y s => ?_⟩
  · rw [exec_ldVxKk, setV_advance_eq]
  · rw [exec_ldVxVy, setV_advance_eq]

/-- Settles O24: the sum of two bytes is the sum modulo 256, and the one write goes to V[X]. -/
theorem addImmediateSetsNoFlag : Obligations.AddImmediateSetsNoFlag := by
  refine ⟨encoding_addVxKk, fun x kk s => ?_⟩
  rw [exec_addVxKk, setV_advance_eq, byte_add_eq]

/-- Settles O25: each of the three operations is one register write. -/
theorem logicSetsNoFlag : Obligations.LogicSetsNoFlag := by
  refine ⟨encoding_orVxVy, encoding_andVxVy, encoding_xorVxVy, fun x y s => ?_, fun x y s => ?_, fun x y s => ?_⟩
  · rw [exec_orVxVy, setV_advance_eq]
  · rw [exec_andVxVy, setV_advance_eq]
  · rw [exec_xorVxVy, setV_advance_eq]

/-- Settles O26: the sum, then the carry of the true sum, as the two writes of R170. -/
theorem addRegistersSetsCarry : Obligations.AddRegistersSetsCarry := by
  refine ⟨encoding_addVxVy, fun x y s => ?_⟩
  rw [exec_addVxVy, setResultAndFlag_advance_eq, byte_add_eq, carryFlag_eq]

/-- Settles O27: both subtractions write the difference, then the strict comparison of minuend and subtrahend. -/
theorem subtractionsFlagStrictlyGreater : Obligations.SubtractionsFlagStrictlyGreater := by
  refine ⟨encoding_subVxVy, encoding_subnVxVy, fun x y s => ?_, fun x y s => ?_⟩
  · rw [exec_subVxVy, setResultAndFlag_advance_eq, byte_sub_eq, greaterFlag_eq]
  · rw [exec_subnVxVy, setResultAndFlag_advance_eq, byte_sub_eq, greaterFlag_eq]

/-- Settles O28: a shift by one is a halving or a doubling, and the flag is the bit that leaves the byte. -/
theorem shiftsByOneFlagTheLostBit : Obligations.ShiftsByOneFlagTheLostBit := by
  refine ⟨encoding_shrVxVy, encoding_shlVxVy, fun x y s => ?_, fun x y s => ?_⟩
  · rw [exec_shrVxVy, setResultAndFlag_advance_eq, byte_shiftRight_one_eq, lowBitFlag_eq]
  · rw [exec_shlVxVy, setResultAndFlag_advance_eq, byte_shiftLeft_one_eq, highBitFlag_eq]

end Sys2Proof.Claims
end

section
/-!
The index register (spec/42_index_memory.md): LD I, nnn of R200 and LD F, Vx of R202.
-/
namespace Sys2Proof.Claims

open Sys2Proof.Machine

/-! ### Decoding family A, and family F by its low byte -/

theorem encoding_ldINnn : Encoding 0xF000 0xA000 (fun op => .ldINnn (fieldADDR op)) := by
  intro op h
  have hfamily : fieldFamily op = 0xA#4 := fieldFamily_of_mask h (by decide)
  exact decode_familyA hfamily

/-- In family F the low byte alone chooses the operation. -/
theorem encoding_familyF {v : Word} {kk : Byte} {f : Word → Instr} (hfamily : fieldFamily v = 0xF#4) (hkk : fieldKK v = kk)
    (hf : ∀ op, fieldKK op = kk → decodeFamilyF op = .instr (f op)) : Encoding 0xF0FF v f := by
  intro op h
  have hop : fieldFamily op = 0xF#4 := (fieldFamily_of_mask h (by decide)).trans hfamily
  have hKK : fieldKK op = kk := (fieldKK_of_mask h (by decide)).trans hkk
  rw [decode_familyF hop, hf op hKK]

theorem encoding_ldFVx : Encoding 0xF0FF 0xF029 (fun op => .ldFVx (fieldX op)) :=
  encoding_familyF (kk := 0x29) (by decide) (by decide) fun op hKK => by simp [decodeFamilyF, hKK]

/-! ### The meanings, as the operation on the state each of them is -/

@[simp] theorem exec_ldINnn (addr : Addr) (s : State) : exec (.ldINnn addr) s = .next (s.setI (zext16 addr)).advance := rfl

@[simp] theorem exec_ldFVx (x : Nibble) (s : State) :
    exec (.ldFVx x) s = .next (s.setI (glyphAddress (s.getV x))).advance := rfl

/-- An index write and the advance touch I and pc alone. -/
theorem setI_advance_eq (s : State) (w : Word) : (s.setI w).advance = { s with I := w, pc := s.pc + 2 } := rfl

/-- The glyph address, computed on words, is the word of the number R202 gives. -/
theorem glyphAddress_eq (v : Byte) : glyphAddress v = BitVec.ofNat 16 (0x050 + 5 * v.toNat) := by
  rw [glyphAddress, BitVec.ofNat_add, BitVec.ofNat_mul, BitVec.ofNat_toNat]
  rfl

/-! ### The statement -/

/-- Settles O30: both instructions are one index write, of ADDR or of the glyph address. -/
theorem indexFromAnAddressOrAGlyph : Obligations.IndexFromAnAddressOrAGlyph := by
  refine ⟨encoding_ldINnn, encoding_ldFVx, fun addr s => ?_, fun x s => ?_⟩
  · rw [exec_ldINnn, setI_advance_eq]
  · rw [exec_ldFVx, setI_advance_eq, glyphAddress_eq]

end Sys2Proof.Claims
end

section
/-!
The display (spec/43_display.md): CLS of R231.
-/
namespace Sys2Proof.Claims

open Sys2Proof.Machine

/-- The one word of family 0 that is CLS, which the decode procedure compares first. -/
theorem decode_cls : decode 0x00E0 = .instr .cls :=
  (decode_family0 (by decide)).trans (if_pos rfl)

/-- CLS writes FB, `redraw` and pc alone, whatever they held. -/
@[simp] theorem exec_cls (s : State) :
    exec .cls s = .next { s with FB := FrameBuffer.blank, redraw := true, pc := s.pc + 2 } := rfl

/-- Settles O35: the framebuffer CLS writes is the blank one, whose pixels are all 0. -/
theorem clsClearsAndAsksForARedraw : Obligations.ClsClearsAndAsksForARedraw :=
  ⟨decode_cls, fun s => ⟨_, exec_cls s, rfl, FrameBuffer.pixel_blank⟩⟩

end Sys2Proof.Claims
end

section
/-!
The delay timer (spec/44_keys_timers.md): LD Vx, DT of R262 and LD DT, Vx of R264.
-/
namespace Sys2Proof.Claims

open Sys2Proof.Machine

/-! ### Decoding family F, by its low byte -/

theorem encoding_ldVxDt : Encoding 0xF0FF 0xF007 (fun op => .ldVxDt (fieldX op)) :=
  encoding_familyF (kk := 0x07) (by decide) (by decide) fun op hKK => by simp [decodeFamilyF, hKK]

theorem encoding_ldDtVx : Encoding 0xF0FF 0xF015 (fun op => .ldDtVx (fieldX op)) :=
  encoding_familyF (kk := 0x15) (by decide) (by decide) fun op hKK => by simp [decodeFamilyF, hKK]

/-! ### The meanings, as the operation on the state each of them is -/

@[simp] theorem exec_ldVxDt (x : Nibble) (s : State) : exec (.ldVxDt x) s = .next (s.setV x s.DT).advance := rfl

/-- LD DT, Vx writes DT and pc alone. -/
@[simp] theorem exec_ldDtVx (x : Nibble) (s : State) :
    exec (.ldDtVx x) s = .next { s with DT := s.getV x, pc := s.pc + 2 } := rfl

/-! ### The statement -/

/-- Settles O39: FX07 is one register write, of DT, and FX15 one write of DT. -/
theorem delayTimerMovesToAndFromRegisters : Obligations.DelayTimerMovesToAndFromRegisters := by
  refine ⟨encoding_ldVxDt, encoding_ldDtVx, fun x s => ?_, exec_ldDtVx⟩
  rw [exec_ldVxDt, setV_advance_eq]

end Sys2Proof.Claims
end

section
/-!
The decoder and the encoder (spec/30_encoding.md): the encoding of every row of R118, the two directions of the round trip, and
the unknown words of R119.
-/
namespace Sys2Proof.Claims

open Sys2Proof.Machine

/-! ### The encodings of the rows not stated yet -/

/-- In a family whose decoding needs no further test, the family nibble alone makes the encoding. -/
theorem encoding_family {v : Word} {family : Nibble} {f : Word → Instr} (hv : fieldFamily v = family)
    (hf : ∀ op, fieldFamily op = family → decode op = .instr (f op)) : Encoding 0xF000 v f :=
  fun op h => hf op ((fieldFamily_of_mask h (by decide)).trans hv)

theorem encoding_jp : Encoding 0xF000 0x1000 (fun op => .jp (fieldADDR op)) :=
  encoding_family (by decide) fun _ => decode_family1

theorem encoding_call : Encoding 0xF000 0x2000 (fun op => .call (fieldADDR op)) :=
  encoding_family (by decide) fun _ => decode_family2

theorem encoding_seVxKk : Encoding 0xF000 0x3000 (fun op => .seVxKk (fieldX op) (fieldKK op)) :=
  encoding_family (by decide) fun _ => decode_family3

theorem encoding_sneVxKk : Encoding 0xF000 0x4000 (fun op => .sneVxKk (fieldX op) (fieldKK op)) :=
  encoding_family (by decide) fun _ => decode_family4

theorem encoding_jpV0Nnn : Encoding 0xF000 0xB000 (fun op => .jpV0Nnn (fieldADDR op)) :=
  encoding_family (by decide) fun _ => decode_familyB

theorem encoding_rnd : Encoding 0xF000 0xC000 (fun op => .rnd (fieldX op) (fieldKK op)) :=
  encoding_family (by decide) fun _ => decode_familyC

theorem encoding_drw : Encoding 0xF000 0xD000 (fun op => .drw (fieldX op) (fieldY op) (fieldN op)) :=
  encoding_family (by decide) fun _ => decode_familyD

/-- In family E the low byte alone chooses the operation. -/
theorem encoding_familyE {v : Word} {kk : Byte} {f : Word → Instr} (hfamily : fieldFamily v = 0xE#4) (hkk : fieldKK v = kk)
    (hf : ∀ op, fieldKK op = kk → decodeFamilyE op = .instr (f op)) : Encoding 0xF0FF v f := by
  intro op h
  have hop : fieldFamily op = 0xE#4 := (fieldFamily_of_mask h (by decide)).trans hfamily
  have hKK : fieldKK op = kk := (fieldKK_of_mask h (by decide)).trans hkk
  rw [decode_familyE hop, hf op hKK]

theorem encoding_skp : Encoding 0xF0FF 0xE09E (fun op => .skp (fieldX op)) :=
  encoding_familyE (kk := 0x9E) (by decide) (by decide) fun op hKK => by simp [decodeFamilyE, hKK]

theorem encoding_sknp : Encoding 0xF0FF 0xE0A1 (fun op => .sknp (fieldX op)) :=
  encoding_familyE (kk := 0xA1) (by decide) (by decide) fun op hKK => by simp [decodeFamilyE, hKK]

theorem encoding_ldVxK : Encoding 0xF0FF 0xF00A (fun op => .ldVxK (fieldX op)) :=
  encoding_familyF (kk := 0x0A) (by decide) (by decide) fun op hKK => by simp [decodeFamilyF, hKK]

theorem encoding_ldStVx : Encoding 0xF0FF 0xF018 (fun op => .ldStVx (fieldX op)) :=
  encoding_familyF (kk := 0x18) (by decide) (by decide) fun op hKK => by simp [decodeFamilyF, hKK]

theorem encoding_addIVx : Encoding 0xF0FF 0xF01E (fun op => .addIVx (fieldX op)) :=
  encoding_familyF (kk := 0x1E) (by decide) (by decide) fun op hKK => by simp [decodeFamilyF, hKK]

theorem encoding_ldBVx : Encoding 0xF0FF 0xF033 (fun op => .ldBVx (fieldX op)) :=
  encoding_familyF (kk := 0x33) (by decide) (by decide) fun op hKK => by simp [decodeFamilyF, hKK]

theorem encoding_ldMiVx : Encoding 0xF0FF 0xF055 (fun op => .ldMiVx (fieldX op)) :=
  encoding_familyF (kk := 0x55) (by decide) (by decide) fun op hKK => by simp [decodeFamilyF, hKK]

theorem encoding_ldVxMi : Encoding 0xF0FF 0xF065 (fun op => .ldVxMi (fieldX op)) :=
  encoding_familyF (kk := 0x65) (by decide) (by decide) fun op hKK => by simp [decodeFamilyF, hKK]

/-- Under the full mask a word is the row's one word. -/
theorem encoding_fullMask {v : Word} {i : Instr} (h : decode v = .instr i) : Encoding 0xFFFF v (fun _ => i) := by
  intro op hop
  have hfull : op &&& 0xFFFF#16 = op := BitVec.and_allOnes
  rwa [← hfull.symm.trans hop] at h

theorem decode_ret : decode 0x00EE = .instr .ret :=
  (decode_family0 (by decide)).trans (by decide)

/-! ### Rows -/

/-- The instruction of the same row whose operands are the fields of a word (R112, R118). -/
def refill : Instr → Word → Instr
  | .cls, _ => .cls
  | .ret, _ => .ret
  | .sys _, op => .sys (fieldKK op)
  | .jp _, op => .jp (fieldADDR op)
  | .call _, op => .call (fieldADDR op)
  | .seVxKk _ _, op => .seVxKk (fieldX op) (fieldKK op)
  | .sneVxKk _ _, op => .sneVxKk (fieldX op) (fieldKK op)
  | .seVxVy _ _, op => .seVxVy (fieldX op) (fieldY op)
  | .ldVxKk _ _, op => .ldVxKk (fieldX op) (fieldKK op)
  | .addVxKk _ _, op => .addVxKk (fieldX op) (fieldKK op)
  | .ldVxVy _ _, op => .ldVxVy (fieldX op) (fieldY op)
  | .orVxVy _ _, op => .orVxVy (fieldX op) (fieldY op)
  | .andVxVy _ _, op => .andVxVy (fieldX op) (fieldY op)
  | .xorVxVy _ _, op => .xorVxVy (fieldX op) (fieldY op)
  | .addVxVy _ _, op => .addVxVy (fieldX op) (fieldY op)
  | .subVxVy _ _, op => .subVxVy (fieldX op) (fieldY op)
  | .shrVxVy _ _, op => .shrVxVy (fieldX op) (fieldY op)
  | .subnVxVy _ _, op => .subnVxVy (fieldX op) (fieldY op)
  | .shlVxVy _ _, op => .shlVxVy (fieldX op) (fieldY op)
  | .sneVxVy _ _, op => .sneVxVy (fieldX op) (fieldY op)
  | .ldINnn _, op => .ldINnn (fieldADDR op)
  | .jpV0Nnn _, op => .jpV0Nnn (fieldADDR op)
  | .rnd _ _, op => .rnd (fieldX op) (fieldKK op)
  | .drw _ _ _, op => .drw (fieldX op) (fieldY op) (fieldN op)
  | .skp _, op => .skp (fieldX op)
  | .sknp _, op => .sknp (fieldX op)
  | .ldVxDt _, op => .ldVxDt (fieldX op)
  | .ldVxK _, op => .ldVxK (fieldX op)
  | .ldDtVx _, op => .ldDtVx (fieldX op)
  | .ldStVx _, op => .ldStVx (fieldX op)
  | .addIVx _, op => .addIVx (fieldX op)
  | .ldFVx _, op => .ldFVx (fieldX op)
  | .ldBVx _, op => .ldBVx (fieldX op)
  | .ldMiVx _, op => .ldMiVx (fieldX op)
  | .ldVxMi _, op => .ldVxMi (fieldX op)

/-- The fields of an instruction's word are its operands. -/
theorem refill_encode (i : Instr) : refill i (encode i) = i := by
  cases i <;> simp [refill, encode]

/-- Every word of a row other than SYS decodes to the row's instruction of the word's fields. -/
theorem encoding_row (i : Instr) (hsys : ∀ nn, i ≠ .sys nn) : Encoding i.row.mask i.row.value (refill i) := by
  cases i
  case sys nn => exact absurd rfl (hsys nn)
  exacts [encoding_fullMask decode_cls, encoding_fullMask decode_ret, encoding_jp, encoding_call, encoding_seVxKk,
    encoding_sneVxKk, encoding_seVxVy, encoding_ldVxKk, encoding_addVxKk, encoding_ldVxVy, encoding_orVxVy,
    encoding_andVxVy, encoding_xorVxVy, encoding_addVxVy, encoding_subVxVy, encoding_shrVxVy, encoding_subnVxVy,
    encoding_shlVxVy, encoding_sneVxVy, encoding_ldINnn, encoding_jpV0Nnn, encoding_rnd, encoding_drw, encoding_skp,
    encoding_sknp, encoding_ldVxDt, encoding_ldVxK, encoding_ldDtVx, encoding_ldStVx, encoding_addIVx, encoding_ldFVx,
    encoding_ldBVx, encoding_ldMiVx, encoding_ldVxMi]

/-- The word of an instruction belongs to the instruction's row. -/
theorem encode_matches_row (i : Instr) : encode i &&& i.row.mask = i.row.value := by
  open Laws.TableRow in
  cases i
  exacts [cls, ret, sys _, jp _, call _, seVxKk _ _, sneVxKk _ _, seVxVy _ _, ldVxKk _ _, addVxKk _ _, ldVxVy _ _,
    orVxVy _ _, andVxVy _ _, xorVxVy _ _, addVxVy _ _, subVxVy _ _, shrVxVy _ _, subnVxVy _ _, shlVxVy _ _, sneVxVy _ _,
    ldINnn _, jpV0Nnn _, rnd _ _, drw _ _ _, skp _, sknp _, ldVxDt _, ldVxK _, ldDtVx _, ldStVx _, addIVx _, ldFVx _,
    ldBVx _, ldMiVx _, ldVxMi _]

/-- The row of an instruction does not depend on its operands, so the map lists it. -/
theorem row_mem_opcodeMap (i : Instr) : i.row ∈ opcodeMap := by
  cases i <;> (dsimp only [Instr.row]; decide)

/-- SYS's word is its own where its NN is neither CLS's nor RET's. -/
theorem decode_encode_sys {nn : Byte} (hwf : (Instr.sys nn).wellFormed = true) :
    decode (encode (.sys nn)) = .instr (.sys nn) := by
  obtain ⟨hE0, hEE⟩ : nn ≠ 0xE0 ∧ nn ≠ 0xEE := by simpa [Instr.wellFormed] using hwf
  have hne : ∀ kk : Byte, nn ≠ kk → formK 0x0 0x0 nn ≠ formK 0x0 0x0 kk :=
    fun kk h he => h (by simpa using congrArg fieldKK he)
  have hdecode : decode (formK 0x0 0x0 nn) = .instr (.sys (fieldKK (formK 0x0 0x0 nn))) :=
    decode_eq_sys (fieldFamily_formK ..) (fieldX_formK ..) (hne 0xE0 hE0) (hne 0xEE hEE)
  rwa [fieldKK_formK] at hdecode

/-- A word of the SYS row is CLS, RET or SYS. -/
theorem decode_of_sys_row {op : Word} (h : op &&& 0xFF00 = 0x0000) : ∃ i, decode op = .instr i := by
  by_cases hcls : op = 0x00E0
  · exact ⟨.cls, hcls ▸ decode_cls⟩
  · by_cases hret : op = 0x00EE
    · exact ⟨.ret, hret ▸ decode_ret⟩
    · exact ⟨_, sysOnlyAdvances.1 op h hcls hret⟩

/-- A word of any row of the map decodes to an instruction. -/
theorem decode_of_row {op : Word} {r : OpcodeRow} (hr : r ∈ opcodeMap) (h : op &&& r.mask = r.value) :
    ∃ i, decode op = .instr i := by
  obtain ⟨i, -, rfl⟩ := List.mem_map.1 hr
  by_cases hsys : ∃ nn, i = .sys nn
  · obtain ⟨nn, rfl⟩ := hsys
    exact decode_of_sys_row h
  · exact ⟨_, encoding_row i (fun nn hi => hsys ⟨nn, hi⟩) op h⟩

/-! ### From a word back to the instruction -/

/-- The word of format A, K or R is determined by its fields, the fixed ones among them. -/
theorem formA_of_family {op : Word} {f : Nibble} (hf : fieldFamily op = f) : formA f (fieldADDR op) = op :=
  hf ▸ formA_fields op

theorem formK_of_family {op : Word} {f : Nibble} (hf : fieldFamily op = f) : formK f (fieldX op) (fieldKK op) = op :=
  hf ▸ formK_fields op

theorem formK_of_family_kk {op : Word} {f : Nibble} {kk : Byte} (hf : fieldFamily op = f) (hkk : fieldKK op = kk) :
    formK f (fieldX op) kk = op :=
  hkk ▸ formK_of_family hf

theorem formR_of_family {op : Word} {f : Nibble} (hf : fieldFamily op = f) :
    formR f (fieldX op) (fieldY op) (fieldN op) = op :=
  hf ▸ formR_fields op

theorem formR_of_family_n {op : Word} {f n : Nibble} (hf : fieldFamily op = f) (hn : fieldN op = n) :
    formR f (fieldX op) (fieldY op) n = op :=
  hn ▸ formR_of_family hf

/-- What a decoding of `op` may be: an instruction whose word `op` is, or the rejection of `op` itself. -/
def IsReadingOf (op : Word) : DecodeResult → Prop
  | .instr i => i.wellFormed = true ∧ encode i = op
  | .unknownOpcode w => w = op

theorem decodeFamily0_isReading {op : Word} (hf : fieldFamily op = 0x0) : IsReadingOf op (decodeFamily0 op) := by
  unfold decodeFamily0
  split_ifs with hcls hret hX
  · exact ⟨rfl, hcls ▸ rfl⟩
  · exact ⟨rfl, hret ▸ rfl⟩
  · have hword : formK 0x0 0x0 (fieldKK op) = op := (congrArg (formK 0x0 · _) hX).symm.trans (formK_of_family hf)
    have hE0 : fieldKK op ≠ 0xE0#8 := fun he => hcls (hword.symm.trans (he ▸ rfl))
    have hEE : fieldKK op ≠ 0xEE#8 := fun he => hret (hword.symm.trans (he ▸ rfl))
    exact ⟨by simp [Instr.wellFormed, hE0, hEE], hword⟩
  · rfl

theorem decodeFamily8_isReading {op : Word} (hf : fieldFamily op = 0x8) : IsReadingOf op (decodeFamily8 op) := by
  unfold decodeFamily8
  split_ifs
  case neg => rfl
  all_goals exact ⟨rfl, formR_of_family_n hf ‹_›⟩

theorem decodeFamilyE_isReading {op : Word} (hf : fieldFamily op = 0xE) : IsReadingOf op (decodeFamilyE op) := by
  unfold decodeFamilyE
  split_ifs
  case neg => rfl
  all_goals exact ⟨rfl, formK_of_family_kk hf ‹_›⟩

theorem decodeFamilyF_isReading {op : Word} (hf : fieldFamily op = 0xF) : IsReadingOf op (decodeFamilyF op) := by
  unfold decodeFamilyF
  split_ifs
  case neg => rfl
  all_goals exact ⟨rfl, formK_of_family_kk hf ‹_›⟩

/-- Decoding reads the word, family by family. -/
theorem decode_isReading (op : Word) : IsReadingOf op (decode op) := by
  rcases fieldFamily_cases op with hf | hf | hf | hf | hf | hf | hf | hf | hf | hf | hf | hf | hf | hf | hf | hf
  · rw [decode_family0 hf]; exact decodeFamily0_isReading hf
  · rw [decode_family1 hf]; exact ⟨rfl, formA_of_family hf⟩
  · rw [decode_family2 hf]; exact ⟨rfl, formA_of_family hf⟩
  · rw [decode_family3 hf]; exact ⟨rfl, formK_of_family hf⟩
  · rw [decode_family4 hf]; exact ⟨rfl, formK_of_family hf⟩
  · rw [decode_family5 hf]
    split_ifs with hn
    · exact ⟨rfl, formR_of_family_n hf hn⟩
    · rfl
  · rw [decode_family6 hf]; exact ⟨rfl, formK_of_family hf⟩
  · rw [decode_family7 hf]; exact ⟨rfl, formK_of_family hf⟩
  · rw [decode_family8 hf]; exact decodeFamily8_isReading hf
  · rw [decode_family9 hf]
    split_ifs with hn
    · exact ⟨rfl, formR_of_family_n hf hn⟩
    · rfl
  · rw [decode_familyA hf]; exact ⟨rfl, formA_of_family hf⟩
  · rw [decode_familyB hf]; exact ⟨rfl, formA_of_family hf⟩
  · rw [decode_familyC hf]; exact ⟨rfl, formK_of_family hf⟩
  · rw [decode_familyD hf]; exact ⟨rfl, formR_of_family hf⟩
  · rw [decode_familyE hf]; exact decodeFamilyE_isReading hf
  · rw [decode_familyF hf]; exact decodeFamilyF_isReading hf

/-- A decoded word is its instruction's word. -/
theorem encode_of_decode {op : Word} {i : Instr} (h : decode op = .instr i) : i.wellFormed = true ∧ encode i = op := by
  have hread := decode_isReading op
  rw [h] at hread
  exact hread

/-- A rejection carries the word itself. -/
theorem eq_of_decode_eq_unknown {op w : Word} (h : decode op = .unknownOpcode w) : w = op := by
  have hread := decode_isReading op
  rw [h] at hread
  exact hread

/-! ### The unknown words -/

theorem decodeFamily0_eq_unknown {op : Word} (hf : fieldFamily op = 0x0) :
    decodeFamily0 op = .unknownOpcode op ↔ fieldX op ≠ 0x0 := by
  constructor
  · intro h hX
    obtain ⟨i, hi⟩ := decode_of_sys_row (op := op) (by rw [← formK_of_family hf, hX, Laws.TableRow.formS_masked]; rfl)
    rw [decode_family0 hf, h] at hi
    cases hi
  · exact fun hX => (decode_family0 hf).symm.trans (decode_family0_unknown hf hX)

/-- In family 8 the nine listed low nibbles are operations and the other seven are not. -/
theorem decodeFamily8_eq_unknown (op : Word) :
    decodeFamily8 op = .unknownOpcode op ↔ fieldN op ∈ ([0x8, 0x9, 0xA, 0xB, 0xC, 0xD, 0xF] : List Nibble) := by
  have hsplit : ∀ n : Nibble, n ∈ ([0x8, 0x9, 0xA, 0xB, 0xC, 0xD, 0xF] : List Nibble) ↔
      n ∉ ([0x0, 0x1, 0x2, 0x3, 0x4, 0x5, 0x6, 0x7, 0xE] : List Nibble) := by decide
  rw [hsplit, decodeFamily8]
  split_ifs <;> simp_all

theorem decodeFamilyE_eq_unknown (op : Word) :
    decodeFamilyE op = .unknownOpcode op ↔ fieldKK op ≠ 0x9E ∧ fieldKK op ≠ 0xA1 := by
  rw [decodeFamilyE]
  split_ifs <;> simp_all

theorem decodeFamilyF_eq_unknown (op : Word) : decodeFamilyF op = .unknownOpcode op ↔
    fieldKK op ∉ ([0x07, 0x0A, 0x15, 0x18, 0x1E, 0x29, 0x33, 0x55, 0x65] : List Byte) := by
  rw [decodeFamilyF]
  split_ifs <;> simp_all

/-- The words decode rejects are those R119 lists, family by family. -/
theorem decode_eq_unknown_iff (op : Word) : decode op = .unknownOpcode op ↔ unlisted op := by
  rcases fieldFamily_cases op with hf | hf | hf | hf | hf | hf | hf | hf | hf | hf | hf | hf | hf | hf | hf | hf <;>
    simp only [unlisted, hf]
  · rw [decode_family0 hf, decodeFamily0_eq_unknown hf]; simp
  · simp [decode_family1 hf]
  · simp [decode_family2 hf]
  · simp [decode_family3 hf]
  · simp [decode_family4 hf]
  · simp [decode_family5 hf]
  · simp [decode_family6 hf]
  · simp [decode_family7 hf]
  · rw [decode_family8 hf, decodeFamily8_eq_unknown]; simp
  · simp [decode_family9 hf]
  · simp [decode_familyA hf]
  · simp [decode_familyB hf]
  · simp [decode_familyC hf]
  · simp [decode_familyD hf]
  · rw [decode_familyE hf, decodeFamilyE_eq_unknown]; simp
  · rw [decode_familyF hf, decodeFamilyF_eq_unknown]; simp

/-! ### The statements -/

/-- Settles O1: an instruction's word belongs to its row, whose words decode to the instruction of their fields. -/
theorem decodeInvertsEncode : Obligations.DecodeInvertsEncode := by
  intro i hwf
  by_cases hsys : ∃ nn, i = .sys nn
  · obtain ⟨nn, rfl⟩ := hsys
    exact decode_encode_sys hwf
  · have hrow := encoding_row i (fun nn hi => hsys ⟨nn, hi⟩) (encode i) (encode_matches_row i)
    rwa [refill_encode] at hrow

/-- Settles O2: every family's decoding is a reading of the word. -/
theorem encodeInvertsDecode : Obligations.EncodeInvertsDecode :=
  fun _ _ => encode_of_decode

/-- Settles O3: a decoded word is its instruction's word and so of its row; a word of any row is decoded. -/
theorem everyWordIsOneRowOrUnknown : Obligations.EveryWordIsOneRowOrUnknown := by
  intro op
  cases hd : decode op with
  | instr i =>
    obtain ⟨-, hword⟩ := encode_of_decode hd
    exact .inl ⟨i, rfl, row_mem_opcodeMap i, hword ▸ encode_matches_row i⟩
  | unknownOpcode w =>
    refine .inr ⟨congrArg _ (eq_of_decode_eq_unknown hd), fun r hr hmatch => ?_⟩
    obtain ⟨i, hi⟩ := decode_of_row hr hmatch
    cases hd.symm.trans hi

/-- Settles O5: eight words of the map and three outside it, compared bit by bit. -/
theorem sampleWordsDecode : Obligations.SampleWordsDecode := by
  unfold Obligations.SampleWordsDecode
  decide

end Sys2Proof.Claims
end

section
/-!
What an instruction does (spec/30_encoding.md R125): the error it takes or the effect it has, and what a step makes of it
(spec/60_exceptions.md R300 to R309).
-/
namespace Sys2Proof.Claims

open Sys2Proof.Machine

/-! ### The error and the effect of an instruction -/

/-- The level of the key that a register value names. -/
def keyLevel (s : State) (v : Byte) : Bool := s.keys[v.toNat]?.getD false

/-- The fatal error that the rule of an instruction takes, if it takes one (R302, R303, R305, R306). -/
def execError : Instr → State → Option FatalError
  | .call _, s => if s.sp.val = 16 then some (.stackOverflow s.pc) else none
  | .ret, s => if s.sp.val = 0 then some (.stackUnderflow s.pc) else none
  | .skp x, s => if 15 < (s.getV x).toNat then some (.keyIndexOutOfRange (s.getV x)) else none
  | .sknp x, s => if 15 < (s.getV x).toNat then some (.keyIndexOutOfRange (s.getV x)) else none
  | i, s => (rangeError s.I (accessLength i)).map .memoryOutOfRange

/-- The state an instruction goes to where it takes no error. -/
def execEffect : Instr → State → State
  | .cls, s => { s with FB := FrameBuffer.blank, redraw := true }.advance
  | .ret, s => { s with sp := ⟨s.sp.val - 1, by omega⟩, pc := s.stack[s.sp.val - 1] }
  | .sys _, s => s.advance
  | .jp addr, s => s.jumpTo (zext16 addr)
  | .call addr, s => { s with
      stack := s.stack.setIfInBounds s.sp.val (s.pc + 2), sp := ⟨min (s.sp.val + 1) 16, by omega⟩, pc := zext16 addr }
  | .seVxKk x kk, s => s.skipIf (s.getV x == kk)
  | .sneVxKk x kk, s => s.skipIf (s.getV x != kk)
  | .seVxVy x y, s => s.skipIf (s.getV x == s.getV y)
  | .ldVxKk x kk, s => (s.setV x kk).advance
  | .addVxKk x kk, s => (s.setV x (s.getV x + kk)).advance
  | .ldVxVy x y, s => (s.setV x (s.getV y)).advance
  | .orVxVy x y, s => (s.setV x (s.getV x ||| s.getV y)).advance
  | .andVxVy x y, s => (s.setV x (s.getV x &&& s.getV y)).advance
  | .xorVxVy x y, s => (s.setV x (s.getV x ^^^ s.getV y)).advance
  | .addVxVy x y, s => (s.setResultAndFlag x (s.getV x + s.getV y) (carryFlag (s.getV x) (s.getV y))).advance
  | .subVxVy x y, s => (s.setResultAndFlag x (s.getV x - s.getV y) (greaterFlag (s.getV x) (s.getV y))).advance
  | .shrVxVy x _, s => (s.setResultAndFlag x (s.getV x >>> 1) (lowBitFlag (s.getV x))).advance
  | .subnVxVy x y, s => (s.setResultAndFlag x (s.getV y - s.getV x) (greaterFlag (s.getV y) (s.getV x))).advance
  | .shlVxVy x _, s => (s.setResultAndFlag x (s.getV x <<< 1) (highBitFlag (s.getV x))).advance
  | .sneVxVy x y, s => s.skipIf (s.getV x != s.getV y)
  | .ldINnn addr, s => (s.setI (zext16 addr)).advance
  | .jpV0Nnn addr, s => s.jumpTo (zext16 addr + zext16 (s.getV 0))
  | .rnd x kk, s => rndWith (Config.randByte s.draws) x kk s
  | .drw x y n, s => (s.drawSprite x y n).advance
  | .skp x, s => s.skipIf (keyLevel s (s.getV x))
  | .sknp x, s => s.skipIf (!keyLevel s (s.getV x))
  | .ldVxDt x, s => (s.setV x s.DT).advance
  | .ldVxK x, s => waitKeyWith (Config.keyChoice s.draws) x s
  | .ldDtVx x, s => { s with DT := s.getV x }.advance
  | .ldStVx x, s => { s with ST := s.getV x }.advance
  | .addIVx x, s => (s.setI (s.I + zext16 (s.getV x))).advance
  | .ldFVx x, s => (s.setI (glyphAddress (s.getV x))).advance
  | .ldBVx x, s => (s.storeBytes s.I.toNat (bcdDigits (s.getV x))).advance
  | .ldMiVx x, s => (s.storeBytes s.I.toNat (s.regsTo x)).advance
  | .ldVxMi x, s => (s.setRegs 0 (s.bytesAtI (x.toNat + 1))).advance

/-- The state after an instruction: the error recorded and nothing else (R304), or the effect. -/
def execResult (i : Instr) (s : State) : State :=
  match execError i s with
  | some e => { s with fault := some e }
  | none => execEffect i s

theorem withRange_eq_match (n : Nat) (s body : State) :
    withRange n s body = .next (match (rangeError s.I n).map FatalError.memoryOutOfRange with
      | some e => { s with fault := some e }
      | none => body) := by
  unfold withRange
  cases rangeError s.I n <;> rfl

/-- What exec answers, for every instruction: only CALL, RET and the key skips have an error beside that of their range. -/
theorem exec_eq_result (i : Instr) (s : State) : exec i s = .next (execResult i s) := by
  cases i
  case ret =>
    rcases pop_eq s with ⟨h, hp⟩ | ⟨h, hp⟩
    · simp [exec, execRet, hp, execResult, execError, h, raise]
    · simp [exec, execRet, hp, execResult, execError, Nat.ne_of_gt h, execEffect, State.jumpTo]
  case call =>
    rcases push_eq (s.pc + 2) s with ⟨h, hp⟩ | ⟨h, hp⟩
    · rw [exec, execCall, hp]
      simp [execResult, execError, h, raise]
    · rw [exec, execCall, hp]
      simp [execResult, execError, Nat.ne_of_lt h, execEffect, State.jumpTo, Vector.setIfInBounds, Vector.set,
        Array.setIfInBounds, h]
  case skp x =>
    rcases keyIndex_eq (s.getV x) with ⟨h, hp⟩ | ⟨h, hp⟩
    · simp [exec, execSkp, hp, execResult, execError, h, raise]
    · simp [exec, execSkp, hp, execResult, execError, Nat.not_lt.2 (Nat.le_of_lt_succ h), execEffect, keyLevel, h]
  case sknp x =>
    rcases keyIndex_eq (s.getV x) with ⟨h, hp⟩ | ⟨h, hp⟩
    · simp [exec, execSknp, hp, execResult, execError, h, raise]
    · simp [exec, execSknp, hp, execResult, execError, Nat.not_lt.2 (Nat.le_of_lt_succ h), execEffect, keyLevel, h]
  case drw => exact withRange_eq_match ..
  case ldBVx => exact withRange_eq_match ..
  case ldMiVx => exact withRange_eq_match ..
  case ldVxMi => exact withRange_eq_match ..
  all_goals rfl

theorem exec_of_error {i : Instr} {s : State} {e : FatalError} (h : execError i s = some e) :
    exec i s = .next { s with fault := some e } := by
  rw [exec_eq_result, execResult, h]

theorem exec_of_no_error {i : Instr} {s : State} (h : execError i s = none) : exec i s = .next (execEffect i s) := by
  rw [exec_eq_result, execResult, h]

/-- Everything an instruction can do. -/
theorem exec_cases {i : Instr} {s t : State} (h : exec i s = .next t) :
    (∃ e, execError i s = some e ∧ t = { s with fault := some e }) ∨ (execError i s = none ∧ t = execEffect i s) := by
  cases he : execError i s with
  | some e => rw [exec_of_error he] at h; cases h; exact .inl ⟨e, rfl, rfl⟩
  | none => rw [exec_of_no_error he] at h; cases h; exact .inr ⟨rfl, rfl⟩

/-! ### Which error -/

theorem rangeError_map_eq_some {w : Word} {n : Nat} {e : FatalError}
    (h : (rangeError w n).map FatalError.memoryOutOfRange = some e) :
    n ≠ 0 ∧ 4096 < w.toNat + n ∧ e = .memoryOutOfRange (max w.toNat 4096) := by
  obtain ⟨a, ha, rfl⟩ := Option.map_eq_some_iff.1 h
  obtain ⟨⟨hn, hlt⟩, rfl⟩ := rangeError_some.1 ha
  exact ⟨hn, hlt, rfl⟩

/-- The kinds of R300 an instruction can take, with cause and info. -/
def OwnError (i : Instr) (s : State) (e : FatalError) : Prop :=
  ((∃ a, i = .call a) ∧ s.sp = 16 ∧ e = .stackOverflow s.pc) ∨
  (i = .ret ∧ s.sp = 0 ∧ e = .stackUnderflow s.pc) ∨
  (((∃ x y n, i = .drw x y n) ∨ (∃ x, i = .ldBVx x) ∨ (∃ x, i = .ldMiVx x) ∨ ∃ x, i = .ldVxMi x) ∧
    accessLength i ≠ 0 ∧ 4096 < s.I.toNat + accessLength i ∧ e = .memoryOutOfRange (max s.I.toNat 4096)) ∨
  ∃ x, (i = .skp x ∨ i = .sknp x) ∧ 15 < (s.getV x).toNat ∧ e = .keyIndexOutOfRange (s.getV x)

theorem ownError_of_execError {i : Instr} {s : State} {e : FatalError} (h : execError i s = some e) : OwnError i s e := by
  cases i
  case call a =>
    obtain ⟨hsp, ⟨⟩⟩ := Option.ite_none_right_eq_some.1 h
    exact .inl ⟨⟨a, rfl⟩, Fin.ext hsp, rfl⟩
  case ret =>
    obtain ⟨hsp, ⟨⟩⟩ := Option.ite_none_right_eq_some.1 h
    exact .inr (.inl ⟨rfl, Fin.ext hsp, rfl⟩)
  case skp x =>
    obtain ⟨hx, ⟨⟩⟩ := Option.ite_none_right_eq_some.1 h
    exact .inr (.inr (.inr ⟨x, .inl rfl, hx, rfl⟩))
  case sknp x =>
    obtain ⟨hx, ⟨⟩⟩ := Option.ite_none_right_eq_some.1 h
    exact .inr (.inr (.inr ⟨x, .inr rfl, hx, rfl⟩))
  case drw x y n => exact .inr (.inr (.inl ⟨.inl ⟨x, y, n, rfl⟩, rangeError_map_eq_some h⟩))
  case ldBVx x => exact .inr (.inr (.inl ⟨.inr (.inl ⟨x, rfl⟩), rangeError_map_eq_some h⟩))
  case ldMiVx x => exact .inr (.inr (.inl ⟨.inr (.inr (.inl ⟨x, rfl⟩)), rangeError_map_eq_some h⟩))
  case ldVxMi x => exact .inr (.inr (.inl ⟨.inr (.inr (.inr ⟨x, rfl⟩)), rangeError_map_eq_some h⟩))
  all_goals cases h

/-! ### What an effect leaves unchanged -/

/-- FX0A writes V, pc and the draw counter alone. -/
theorem waitKeyWith_frame (choice : Nat) (x : Nibble) (s : State) :
    waitKeyWith choice x s = { s with
      V := (waitKeyWith choice x s).V, pc := (waitKeyWith choice x s).pc, draws := (waitKeyWith choice x s).draws } := by
  unfold waitKeyWith
  split <;> rfl

@[simp] theorem waitKeyWith_mem (c : Nat) (x : Nibble) (s : State) : (waitKeyWith c x s).mem = s.mem := by rw [waitKeyWith_frame]
@[simp] theorem waitKeyWith_I (c : Nat) (x : Nibble) (s : State) : (waitKeyWith c x s).I = s.I := by rw [waitKeyWith_frame]
@[simp] theorem waitKeyWith_stack (c : Nat) (x : Nibble) (s : State) : (waitKeyWith c x s).stack = s.stack := by rw [waitKeyWith_frame]
@[simp] theorem waitKeyWith_sp (c : Nat) (x : Nibble) (s : State) : (waitKeyWith c x s).sp = s.sp := by rw [waitKeyWith_frame]
@[simp] theorem waitKeyWith_DT (c : Nat) (x : Nibble) (s : State) : (waitKeyWith c x s).DT = s.DT := by rw [waitKeyWith_frame]
@[simp] theorem waitKeyWith_ST (c : Nat) (x : Nibble) (s : State) : (waitKeyWith c x s).ST = s.ST := by rw [waitKeyWith_frame]
@[simp] theorem waitKeyWith_FB (c : Nat) (x : Nibble) (s : State) : (waitKeyWith c x s).FB = s.FB := by rw [waitKeyWith_frame]
@[simp] theorem waitKeyWith_redraw (c : Nat) (x : Nibble) (s : State) : (waitKeyWith c x s).redraw = s.redraw := by rw [waitKeyWith_frame]
@[simp] theorem waitKeyWith_keys (c : Nat) (x : Nibble) (s : State) : (waitKeyWith c x s).keys = s.keys := by rw [waitKeyWith_frame]
@[simp] theorem waitKeyWith_opcode (c : Nat) (x : Nibble) (s : State) : (waitKeyWith c x s).opcode = s.opcode := by rw [waitKeyWith_frame]
@[simp] theorem waitKeyWith_fault (c : Nat) (x : Nibble) (s : State) : (waitKeyWith c x s).fault = s.fault := by rw [waitKeyWith_frame]

@[simp] theorem setRegs_mem (s : State) (k : Nat) (vs : List Byte) : (s.setRegs k vs).mem = s.mem := by rw [State.setRegs_frame]
@[simp] theorem setRegs_I (s : State) (k : Nat) (vs : List Byte) : (s.setRegs k vs).I = s.I := by rw [State.setRegs_frame]
@[simp] theorem setRegs_pc (s : State) (k : Nat) (vs : List Byte) : (s.setRegs k vs).pc = s.pc := by rw [State.setRegs_frame]
@[simp] theorem setRegs_stack (s : State) (k : Nat) (vs : List Byte) : (s.setRegs k vs).stack = s.stack := by rw [State.setRegs_frame]
@[simp] theorem setRegs_sp (s : State) (k : Nat) (vs : List Byte) : (s.setRegs k vs).sp = s.sp := by rw [State.setRegs_frame]
@[simp] theorem setRegs_DT (s : State) (k : Nat) (vs : List Byte) : (s.setRegs k vs).DT = s.DT := by rw [State.setRegs_frame]
@[simp] theorem setRegs_ST (s : State) (k : Nat) (vs : List Byte) : (s.setRegs k vs).ST = s.ST := by rw [State.setRegs_frame]
@[simp] theorem setRegs_FB (s : State) (k : Nat) (vs : List Byte) : (s.setRegs k vs).FB = s.FB := by rw [State.setRegs_frame]
@[simp] theorem setRegs_redraw (s : State) (k : Nat) (vs : List Byte) : (s.setRegs k vs).redraw = s.redraw := by rw [State.setRegs_frame]
@[simp] theorem setRegs_keys (s : State) (k : Nat) (vs : List Byte) : (s.setRegs k vs).keys = s.keys := by rw [State.setRegs_frame]
@[simp] theorem setRegs_opcode (s : State) (k : Nat) (vs : List Byte) : (s.setRegs k vs).opcode = s.opcode := by rw [State.setRegs_frame]
@[simp] theorem setRegs_fault (s : State) (k : Nat) (vs : List Byte) : (s.setRegs k vs).fault = s.fault := by rw [State.setRegs_frame]

@[simp] theorem execEffect_fault (i : Instr) (s : State) : (execEffect i s).fault = s.fault := by
  cases i
  case ldVxK => exact waitKeyWith_fault ..
  case ldVxMi => exact setRegs_fault ..
  all_goals rfl

/-- The bytes an instruction stores from I on. -/
def storedBytes : Instr → State → List Byte
  | .ldBVx x, s => bcdDigits (s.getV x)
  | .ldMiVx x, s => s.regsTo x
  | _, _ => []

@[simp] theorem length_storedBytes (i : Instr) (s : State) : (storedBytes i s).length = storedLength i := by
  cases i
  case ldMiVx x => simp [storedBytes, storedLength, State.regsTo]
  all_goals rfl

@[simp] theorem execEffect_mem (i : Instr) (s : State) :
    (execEffect i s).mem = s.mem.writeBytes s.I.toNat (storedBytes i s) := by
  cases i
  case ldVxK => exact waitKeyWith_mem ..
  case ldVxMi => exact setRegs_mem ..
  all_goals rfl

/-! ### A step, case by case -/

theorem step_of_stopped {s : State} {e : FatalError} (h : s.fault = some e) : step s = .fault (.stopped e) := by
  rw [step, fetchDecode, h]

theorem step_of_fetch_error {s : State} (hf : s.fault = none) (hpc : 4095 ≤ s.pc.toNat) :
    step s = .next { s with fault := some (.memoryOutOfRange (max s.pc.toNat 4096)) } := by
  rw [step, fetchDecode, hf, fetchWord_eq, if_neg (Nat.not_lt.2 hpc)]
  rfl

/-- The word of the two bytes at pc, the high byte first (R84). -/
def fetchedWord (s : State) : Word := bigEndian (s.mem.read s.pc.toNat) (s.mem.read (s.pc.toNat + 1))

theorem step_of_unknown {s : State} (hf : s.fault = none) (hpc : s.pc.toNat < 4095)
    (hd : decode (fetchedWord s) = .unknownOpcode (fetchedWord s)) :
    step s = .next { s with opcode := fetchedWord s, fault := some (.unknownOpcode (fetchedWord s)) } := by
  rw [step, fetchDecode, hf, fetchWord_eq, if_pos hpc]
  dsimp only
  rw [show decode (bigEndian _ _) = _ from hd]
  rfl

theorem step_of_instr {s : State} {i : Instr} (hf : s.fault = none) (hpc : s.pc.toNat < 4095)
    (hd : decode (fetchedWord s) = .instr i) : step s = exec i (s.latch (fetchedWord s)) := by
  rw [step, fetchDecode, hf, fetchWord_eq, if_pos hpc]
  dsimp only
  rw [show decode (bigEndian _ _) = _ from hd]
  rfl

/-- Everything a step of a running core can do: a fetch error; an unknown word taken; the error of the decoded instruction taken,
with the word latched; or its effect. -/
theorem step_next_cases {s t : State} (h : step s = .next t) :
    s.fault = none ∧
    ((4095 ≤ s.pc.toNat ∧ t = { s with fault := some (.memoryOutOfRange (max s.pc.toNat 4096)) }) ∨
     (s.pc.toNat < 4095 ∧
      ((decode (fetchedWord s) = .unknownOpcode (fetchedWord s) ∧
        t = { s with opcode := fetchedWord s, fault := some (.unknownOpcode (fetchedWord s)) }) ∨
       ∃ i, decode (fetchedWord s) = .instr i ∧
        ((∃ e, execError i (s.latch (fetchedWord s)) = some e ∧ t = { s with opcode := fetchedWord s, fault := some e }) ∨
         t = execEffect i (s.latch (fetchedWord s)))))) := by
  cases hf : s.fault with
  | some e => rw [step_of_stopped hf] at h; cases h
  | none =>
    refine ⟨rfl, ?_⟩
    by_cases hpc : s.pc.toNat < 4095
    · refine .inr ⟨hpc, ?_⟩
      cases hd : decode (fetchedWord s) with
      | unknownOpcode w =>
        obtain rfl := eq_of_decode_eq_unknown hd
        rw [step_of_unknown hf hpc hd] at h
        cases h
        exact .inl ⟨rfl, rfl⟩
      | instr i =>
        rw [step_of_instr hf hpc hd] at h
        rcases exec_cases h with ⟨e, he, rfl⟩ | ⟨-, rfl⟩
        · exact .inr ⟨i, rfl, .inl ⟨e, he, rfl⟩⟩
        · exact .inr ⟨i, rfl, .inr rfl⟩
    · rw [step_of_fetch_error hf (Nat.not_lt.1 hpc)] at h
      cases h
      exact .inl ⟨Nat.not_lt.1 hpc, rfl⟩

/-! ### The invariant -/

/-- An instruction's own error is explained by the state it is taken in, with the instruction's word latched. -/
theorem faultExplained_of_execError {i : Instr} {s : State} {e : FatalError} (hd : decode s.opcode = .instr i)
    (he : execError i s = some e) : ({ s with fault := some e } : State).faultExplained := by
  rcases ownError_of_execError he with ⟨⟨a, rfl⟩, hsp, rfl⟩ | ⟨rfl, hsp, rfl⟩ | ⟨-, hn, hlt, rfl⟩ | ⟨x, hi, hx, rfl⟩
  · exact ⟨rfl, hsp, a, hd⟩
  · exact ⟨rfl, hsp, hd⟩
  · exact .inr ⟨i, hd, rangeError_some.2 ⟨⟨hn, hlt⟩, rfl⟩⟩
  · rcases hi with rfl | rfl
    · exact ⟨hx, x, rfl, .inl hd⟩
    · exact ⟨hx, x, rfl, .inr hd⟩

theorem faultExplained_of_no_fault {s : State} (h : s.fault = none) : s.faultExplained := by
  rw [State.faultExplained, h]
  trivial

/-- Settles O11: an error a step takes is explained by the word it latched, and an effect stores by `writeBytes`. -/
theorem everyStepKeepsTheInvariant : Obligations.EveryStepKeepsTheInvariant := by
  rintro s t ⟨hwf, -⟩ hstep
  obtain ⟨hf, hcases⟩ := step_next_cases hstep
  rcases hcases with ⟨hpc, rfl⟩ | ⟨-, ⟨hd, rfl⟩ | ⟨i, hd, ⟨e, he, rfl⟩ | rfl⟩⟩
  · exact ⟨hwf, .inl ⟨hpc, rfl⟩⟩
  · exact ⟨hwf, rfl, hd⟩
  · exact ⟨hwf, faultExplained_of_execError (s := s.latch (fetchedWord s)) hd he⟩
  · refine ⟨?_, faultExplained_of_no_fault ((execEffect_fault ..).trans hf)⟩
    rw [execEffect_mem]
    exact Memory.writeBytes_wf hwf ..

/-- Settles O12: memory lists nothing at reset, and there is no fault to explain. -/
theorem resetMeetsTheInvariant : Obligations.ResetMeetsTheInvariant :=
  ⟨State.reset_mem_wf, faultExplained_of_no_fault rfl⟩

/-! ### Steps and their errors -/

/-- Settles O4: the six kinds family by family, and the step at one of them is the case of an unknown word. -/
theorem unlistedWordsRaiseUnknownOpcode : Obligations.UnlistedWordsRaiseUnknownOpcode := by
  refine ⟨decode_eq_unknown_iff, ?_⟩
  rintro s op hf hpc rfl hunlisted
  exact step_of_unknown hf hpc ((decode_eq_unknown_iff _).2 hunlisted)

/-- Settles O6: it is the case of a decoded word of a running core's step. -/
theorem stepRunsTheDecodedInstruction : Obligations.StepRunsTheDecodedInstruction :=
  fun _ _ => step_of_instr

/-- Settles O7: the four cases of a step before it executes. -/
theorem stepErrorsComeInOrder : Obligations.StepErrorsComeInOrder := by
  refine fun s => ⟨fun e => step_of_stopped, fun hf hpc => ?_, fun hf hpc => ?_, ?_⟩
  · rw [step_of_fetch_error hf (by omega), Nat.max_eq_left hpc]
  · rw [step_of_fetch_error hf (by omega), hpc]
    rfl
  · rintro hf hpc w rfl hd
    exact step_of_unknown hf hpc hd

/-- Settles O8: each of the three ways to take an error names the state it leaves; an effect has no fault. -/
theorem fatalErrorsArePrecise : Obligations.FatalErrorsArePrecise := by
  intro s t e hf hstep ht
  obtain ⟨-, hcases⟩ := step_next_cases hstep
  rcases hcases with ⟨hpc, rfl⟩ | ⟨hpc, ⟨-, rfl⟩ | ⟨i, -, ⟨e', -, rfl⟩ | rfl⟩⟩
  · cases ht
    exact ⟨rfl, fun h => absurd hpc (Nat.not_le.2 h), fun _ => rfl⟩
  · cases ht
    exact ⟨rfl, fun _ => rfl, fun h => absurd hpc (Nat.not_lt.2 h)⟩
  · cases ht
    exact ⟨rfl, fun _ => rfl, fun h => absurd hpc (Nat.not_lt.2 h)⟩
  · rw [execEffect_fault, State.latch_fault, hf] at ht
    cases ht

/-- Settles O9: without an error of its own an instruction keeps the fault status. -/
theorem eachInstructionRaisesItsOwnError : Obligations.EachInstructionRaisesItsOwnError := by
  intro i s t e hf hexec ht
  rcases exec_cases hexec with ⟨e', he, rfl⟩ | ⟨-, rfl⟩
  · cases ht
    exact ownError_of_execError he
  · rw [execEffect_fault, hf] at ht
    cases ht

/-- A step of a core that is not stopped gives a next state. -/
theorem step_next_of_running {s : State} (hf : s.fault = none) : ∃ t, step s = .next t := by
  rcases step_cases s with ⟨e, he, -⟩ | ⟨-, -, hstep⟩ | ⟨w, -, -, -, ⟨op, -, hstep⟩ | ⟨i, -, hstep⟩⟩
  · rw [hf] at he
    cases he
  · exact ⟨_, hstep⟩
  · exact ⟨_, hstep⟩
  · rw [hstep]
    exact exec_next i _

/-- STEP answers what the state after the step records. -/
theorem transact_step_of_next {c : Session} {t : State} (h : step c.core = .next t) :
    c.transact .step = .next (⟨t, false⟩, stepResponse t) := by
  rw [Session.transact, Session.step, h]

/-- Settles O58: a running core's step has a next state, and STEP answers by its fault status. -/
theorem stepPortAnswersOkOrTheFault : Obligations.StepPortAnswersOkOrTheFault := by
  intro c hf
  obtain ⟨t, hstep⟩ := step_next_of_running hf
  refine ⟨t, hstep, fun ht => ?_, fun e ht => ?_⟩
  · rw [transact_step_of_next hstep, stepResponse, ht]
  · rw [transact_step_of_next hstep, stepResponse, ht]

end Sys2Proof.Claims
end

section
/-!
The frames over all instructions (spec/10_state.md R33 to R51, spec/40_control.md R140): which registers, which other items, which
bytes an instruction may change, and what no instruction reads.
-/
namespace Sys2Proof.Claims

open Sys2Proof.Machine

/-! ### Registers -/

theorem getV_setV_of_ne {s : State} {x r : Nibble} {v : Byte} (h : r ≠ x) : (s.setV x v).getV r = s.getV r := by
  rw [State.getV_setV, if_neg h]

theorem getV_setResultAndFlag_of_ne {s : State} {x r : Nibble} {result flag : Byte} (h : ¬ (r = x ∨ r = VF)) :
    (s.setResultAndFlag x result flag).getV r = s.getV r := by
  obtain ⟨hx, hVF⟩ := not_or.1 h
  rw [State.setResultAndFlag, getV_setV_of_ne hVF, getV_setV_of_ne hx]

theorem getV_waitKeyWith_of_ne {choice : Nat} {s : State} {x r : Nibble} (h : r ≠ x) :
    (waitKeyWith choice x s).getV r = s.getV r := by
  unfold waitKeyWith
  split
  · rfl
  · exact getV_setV_of_ne h

theorem getV_drawSprite_of_ne {s : State} {x y n r : Nibble} (h : r ≠ VF) : (s.drawSprite x y n).getV r = s.getV r :=
  getV_setV_of_ne h

@[simp] theorem length_bytesAtI (s : State) (n : Nat) : (s.bytesAtI n).length = n := by
  simp [State.bytesAtI]

/-- FX65 on one register: the byte at its place up to V[X], the old value above. -/
theorem getV_setRegs_bytesAtI (s : State) (x r : Nibble) :
    (s.setRegs 0 (s.bytesAtI (x.toNat + 1))).getV r =
      if r.toNat ≤ x.toNat then s.mem.read (s.I.toNat + r.toNat) else s.getV r := by
  have hx : x.toNat < 16 := x.isLt
  rw [State.getV_setRegs _ _ _ (by rw [length_bytesAtI]; omega), length_bytesAtI]
  by_cases h : r.toNat ≤ x.toNat
  · have hlt : r.toNat < x.toNat + 1 := by omega
    rw [if_pos h, if_pos (by omega)]
    simp [State.bytesAtI, List.getD, hlt]
  · rw [if_neg h, if_neg (by omega)]

theorem execEffect_getV {i : Instr} {s : State} {r : Nibble} (h : ¬ mayWriteV i r) :
    (execEffect i s).getV r = s.getV r := by
  cases i
  case ldVxKk | addVxKk | ldVxVy | orVxVy | andVxVy | xorVxVy | rnd | ldVxDt => exact getV_setV_of_ne h
  case addVxVy | subVxVy | shrVxVy | subnVxVy | shlVxVy => exact getV_setResultAndFlag_of_ne h
  case drw => exact getV_drawSprite_of_ne h
  case ldVxK => exact getV_waitKeyWith_of_ne h
  case ldVxMi x => exact (getV_setRegs_bytesAtI s x r).trans (if_neg h)
  all_goals rfl

/-- Settles O43: an error changes no register, an effect those of the table. -/
theorem registersChangeOnlyByTheTable : Obligations.RegistersChangeOnlyByTheTable := by
  intro i s t r hexec hr
  rcases exec_cases hexec with ⟨e, -, rfl⟩ | ⟨-, rfl⟩
  · rfl
  · exact execEffect_getV hr

/-! ### Items other than registers and memory -/

theorem execEffect_I (i : Instr) (s : State) : (execEffect i s).I = s.I ∨
    (∃ a, i = .ldINnn a) ∨ (∃ x, i = .addIVx x) ∨ ∃ x, i = .ldFVx x := by
  cases i
  case ldINnn a => exact .inr (.inl ⟨a, rfl⟩)
  case addIVx x => exact .inr (.inr (.inl ⟨x, rfl⟩))
  case ldFVx x => exact .inr (.inr (.inr ⟨x, rfl⟩))
  case ldVxK => exact .inl (waitKeyWith_I ..)
  case ldVxMi => exact .inl (setRegs_I ..)
  all_goals exact .inl rfl

theorem execEffect_stack (i : Instr) (s : State) : (execEffect i s).stack = s.stack ∨ ∃ a, i = .call a := by
  cases i
  case call a => exact .inr ⟨a, rfl⟩
  case ldVxK => exact .inl (waitKeyWith_stack ..)
  case ldVxMi => exact .inl (setRegs_stack ..)
  all_goals exact .inl rfl

theorem execEffect_sp (i : Instr) (s : State) : (execEffect i s).sp = s.sp ∨ i = .ret ∨ ∃ a, i = .call a := by
  cases i
  case ret => exact .inr (.inl rfl)
  case call a => exact .inr (.inr ⟨a, rfl⟩)
  case ldVxK => exact .inl (waitKeyWith_sp ..)
  case ldVxMi => exact .inl (setRegs_sp ..)
  all_goals exact .inl rfl

theorem execEffect_DT (i : Instr) (s : State) :
    (execEffect i s).DT = s.DT ∨ ∃ x, i = .ldDtVx x ∧ (execEffect i s).DT = s.getV x := by
  cases i
  case ldDtVx x => exact .inr ⟨x, rfl, rfl⟩
  case ldVxK => exact .inl (waitKeyWith_DT ..)
  case ldVxMi => exact .inl (setRegs_DT ..)
  all_goals exact .inl rfl

theorem execEffect_ST (i : Instr) (s : State) :
    (execEffect i s).ST = s.ST ∨ ∃ x, i = .ldStVx x ∧ (execEffect i s).ST = s.getV x := by
  cases i
  case ldStVx x => exact .inr ⟨x, rfl, rfl⟩
  case ldVxK => exact .inl (waitKeyWith_ST ..)
  case ldVxMi => exact .inl (setRegs_ST ..)
  all_goals exact .inl rfl

theorem execEffect_FB_redraw (i : Instr) (s : State) :
    ((execEffect i s).FB = s.FB ∧ (execEffect i s).redraw = s.redraw) ∨
    ((execEffect i s).redraw = true ∧ (i = .cls ∨ ∃ x y n, i = .drw x y n)) := by
  cases i
  case cls => exact .inr ⟨rfl, .inl rfl⟩
  case drw x y n => exact .inr ⟨rfl, .inr ⟨x, y, n, rfl⟩⟩
  case ldVxK => exact .inl ⟨waitKeyWith_FB .., waitKeyWith_redraw ..⟩
  case ldVxMi => exact .inl ⟨setRegs_FB .., setRegs_redraw ..⟩
  all_goals exact .inl ⟨rfl, rfl⟩

theorem execEffect_keys (i : Instr) (s : State) : (execEffect i s).keys = s.keys := by
  cases i
  case ldVxK => exact waitKeyWith_keys ..
  case ldVxMi => exact setRegs_keys ..
  all_goals rfl

theorem execEffect_opcode (i : Instr) (s : State) : (execEffect i s).opcode = s.opcode := by
  cases i
  case ldVxK => exact waitKeyWith_opcode ..
  case ldVxMi => exact setRegs_opcode ..
  all_goals rfl

/-- Settles O44: an error changes none of these items, an effect each of them by its writers alone. -/
theorem otherStateChangesOnlyByItsWriters : Obligations.OtherStateChangesOnlyByItsWriters := by
  intro i s t hexec
  rcases exec_cases hexec with ⟨e, -, rfl⟩ | ⟨-, rfl⟩
  · exact ⟨absurd rfl, absurd rfl, absurd rfl, absurd rfl, absurd rfl, absurd rfl, absurd rfl, rfl, rfl⟩
  · refine ⟨(execEffect_I i s).resolve_left, (execEffect_stack i s).resolve_left, (execEffect_sp i s).resolve_left,
      fun h => ?_, fun h => ?_, fun h => ?_, fun h => ?_, execEffect_keys i s, execEffect_opcode i s⟩
    · obtain ⟨x, hi, -⟩ := (execEffect_DT i s).resolve_left h
      exact ⟨x, hi⟩
    · obtain ⟨x, hi, -⟩ := (execEffect_ST i s).resolve_left h
      exact ⟨x, hi⟩
    · exact ((execEffect_FB_redraw i s).resolve_left fun hsame => h hsame.1).2
    · exact (execEffect_FB_redraw i s).resolve_left fun hsame => h hsame.2

/-! ### Memory -/

/-- Without an error the stored range lies in memory. -/
theorem storedRange_of_no_error {i : Instr} {s : State} (h : execError i s = none) :
    storedLength i = 0 ∨ s.I.toNat + storedLength i ≤ 4096 := by
  cases i
  case ldBVx | ldMiVx => exact rangeError_none.1 (Option.map_eq_none_iff.1 h)
  all_goals exact .inl rfl

theorem read_execEffect {i : Instr} {s : State} (hwf : s.mem.wf = true) (h : execError i s = none) (a : Nat) :
    (execEffect i s).mem.read a =
      if s.I.toNat ≤ a ∧ a < s.I.toNat + storedLength i then (storedBytes i s).getD (a - s.I.toNat) 0
      else s.mem.read a := by
  rw [execEffect_mem]
  rcases storedRange_of_no_error h with h0 | hle
  · have hnil : storedBytes i s = [] := List.eq_nil_of_length_eq_zero ((length_storedBytes i s).trans h0)
    rw [hnil, h0, if_neg (by omega)]
    rfl
  · rw [← length_storedBytes i s] at hle ⊢
    exact Memory.read_writeBytes hwf hle a

/-- Settles O45: the bytes an effect writes are those of its stored range. -/
theorem memoryChangesOnlyInTheStoredRange : Obligations.MemoryChangesOnlyInTheStoredRange := by
  intro i s t a hwf hexec ha
  rcases exec_cases hexec with ⟨e, -, rfl⟩ | ⟨he, rfl⟩
  · rfl
  · rw [read_execEffect hwf he, if_neg (by omega)]

/-! ### The program counter -/

theorem execEffect_pc {i : Instr} {s : State} (h : ¬ setsPcItself i) : (execEffect i s).pc = s.pc + 2 := by
  cases i
  case ret | jp | call | seVxKk | sneVxKk | seVxVy | sneVxVy | jpV0Nnn | skp | sknp | ldVxK =>
    exact absurd (by simp [setsPcItself]) h
  case ldVxMi => exact congrArg (· + 2) (setRegs_pc ..)
  all_goals rfl

/-- Settles O46: an error leaves pc, and an effect that takes none has no fault. -/
theorem fallThroughAdvancesPcByTwo : Obligations.FallThroughAdvancesPcByTwo := by
  intro i s t hf hexec
  rcases exec_cases hexec with ⟨e, -, rfl⟩ | ⟨-, rfl⟩
  · exact ⟨fun _ => rfl, nofun⟩
  · exact ⟨fun h => absurd ((execEffect_fault i s).trans hf) h, fun _ => execEffect_pc⟩

/-! ### What no instruction reads -/

/-- FX65's writes commute with a write of ST. -/
theorem setRegs_with_ST (s : State) (v : Byte) (k : Nat) (vs : List Byte) :
    ({ s with ST := v } : State).setRegs k vs = { s.setRegs k vs with ST := v } := by
  induction vs generalizing s k with
  | nil => rfl
  | cons u vs ih => exact ih (s.setV (BitVec.ofNat 4 k) u) (k + 1)

/-- So does FX0A's wait. -/
theorem waitKeyWith_with_ST (s : State) (v : Byte) (choice : Nat) (x : Nibble) :
    waitKeyWith choice x { s with ST := v } = { waitKeyWith choice x s with ST := v } := by
  simp only [waitKeyWith]
  cases selectKey choice s.keys <;> rfl

theorem execError_with_ST (i : Instr) (s : State) (v : Byte) : execError i { s with ST := v } = execError i s := by
  cases i <;> rfl

/-- From another value of ST an effect differs in ST at most. -/
theorem execEffect_with_ST (i : Instr) (s : State) (v : Byte) :
    { execEffect i { s with ST := v } with ST := (execEffect i s).ST } = execEffect i s := by
  cases i
  case ldVxK x =>
    have h := waitKeyWith_with_ST s v (Config.keyChoice s.draws) x
    exact congrArg (fun u : State => { u with ST := (execEffect (.ldVxK x) s).ST }) h
  case ldVxMi x =>
    have h := setRegs_with_ST s v 0 (s.bytesAtI (x.toNat + 1))
    exact congrArg (fun u : State => { u.advance with ST := (execEffect (.ldVxMi x) s).ST }) h
  all_goals rfl

/-- Settles O40: neither the error nor the effect of an instruction reads ST. -/
theorem soundTimerIsWrittenAndNeverRead : Obligations.SoundTimerIsWrittenAndNeverRead := by
  refine ⟨encoding_ldStVx, fun x s => rfl, fun i s t v hexec => ?_⟩
  rcases exec_cases hexec with ⟨e, he, rfl⟩ | ⟨he, rfl⟩
  · exact ⟨_, exec_of_error ((execError_with_ST i s v).trans he), rfl⟩
  · exact ⟨_, exec_of_no_error ((execError_with_ST i s v).trans he), execEffect_with_ST i s v⟩

/-- FX65's writes commute with a write of the redraw flag and the latch. -/
theorem setRegs_with_redraw_opcode (s : State) (b : Bool) (w : Word) (k : Nat) (vs : List Byte) :
    ({ s with redraw := b, opcode := w } : State).setRegs k vs = { s.setRegs k vs with redraw := b, opcode := w } := by
  induction vs generalizing s k with
  | nil => rfl
  | cons u vs ih => exact ih (s.setV (BitVec.ofNat 4 k) u) (k + 1)

/-- So does FX0A's wait. -/
theorem waitKeyWith_with_redraw_opcode (s : State) (b : Bool) (w : Word) (choice : Nat) (x : Nibble) :
    waitKeyWith choice x { s with redraw := b, opcode := w } = { waitKeyWith choice x s with redraw := b, opcode := w } := by
  simp only [waitKeyWith]
  cases selectKey choice s.keys <;> rfl

theorem execError_with_redraw_opcode (i : Instr) (s : State) (b : Bool) (w : Word) :
    execError i { s with redraw := b, opcode := w } = execError i s := by
  cases i <;> rfl

/-- From another redraw flag and another latch an effect differs in these at most. -/
theorem execEffect_with_redraw_opcode (i : Instr) (s : State) (b : Bool) (w : Word) :
    { execEffect i { s with redraw := b, opcode := w } with
      redraw := (execEffect i s).redraw, opcode := (execEffect i s).opcode } = execEffect i s := by
  cases i
  case ldVxK x =>
    have h := waitKeyWith_with_redraw_opcode s b w (Config.keyChoice s.draws) x
    exact congrArg (fun u : State => { u with
      redraw := (execEffect (.ldVxK x) s).redraw, opcode := (execEffect (.ldVxK x) s).opcode }) h
  case ldVxMi x =>
    have h := setRegs_with_redraw_opcode s b w 0 (s.bytesAtI (x.toNat + 1))
    exact congrArg (fun u : State => { u.advance with
      redraw := (execEffect (.ldVxMi x) s).redraw, opcode := (execEffect (.ldVxMi x) s).opcode }) h
  all_goals rfl

/-- Settles O47: neither the error nor the effect of an instruction reads the redraw flag or the latch. -/
theorem redrawAndLatchAreNeverRead : Obligations.RedrawAndLatchAreNeverRead := by
  intro i s t b w hexec
  rcases exec_cases hexec with ⟨e, he, rfl⟩ | ⟨he, rfl⟩
  · exact ⟨_, exec_of_error ((execError_with_redraw_opcode i s b w).trans he), rfl⟩
  · exact ⟨_, exec_of_no_error ((execError_with_redraw_opcode i s b w).trans he), execEffect_with_redraw_opcode i s b w⟩

end Sys2Proof.Claims
end

section
/-!
Control transfer (spec/40_control.md): RET, JP, CALL, JP V0 and the skips on an immediate; call and return together, and the idle
state of spec/70_reset_and_hazards.md R367.
-/
namespace Sys2Proof.Claims

open Sys2Proof.Machine

/-! ### The meanings, as the operation on the state each of them is -/

@[simp] theorem exec_jp (addr : Addr) (s : State) : exec (.jp addr) s = .next (s.jumpTo (zext16 addr)) := rfl

@[simp] theorem exec_jpV0Nnn (addr : Addr) (s : State) :
    exec (.jpV0Nnn addr) s = .next (s.jumpTo (zext16 addr + zext16 (s.getV 0))) := rfl

@[simp] theorem exec_seVxKk (x : Nibble) (kk : Byte) (s : State) :
    exec (.seVxKk x kk) s = .next (s.skipIf (s.getV x == kk)) := rfl

@[simp] theorem exec_sneVxKk (x : Nibble) (kk : Byte) (s : State) :
    exec (.sneVxKk x kk) s = .next (s.skipIf (s.getV x != kk)) := rfl

theorem exec_ret_of_pos {s : State} (k : Fin 16) (h : s.sp = k.succ) :
    exec .ret s = .next { s with sp := k.castSucc, pc := s.stack[k] } := by
  have hval : s.sp.val = k.val + 1 := congrArg Fin.val h
  have hno : execError .ret s = none := if_neg (by omega)
  rw [exec_of_no_error hno]
  simp [execEffect, hval, Fin.castSucc, Fin.castAdd, Fin.castLE]

theorem exec_ret_of_zero {s : State} (h : s.sp = 0) : exec .ret s = .next { s with fault := some (.stackUnderflow s.pc) } :=
  exec_of_error (if_pos (congrArg Fin.val h))

theorem exec_call_of_lt {s : State} (addr : Addr) (k : Fin 16) (h : s.sp = k.castSucc) :
    exec (.call addr) s =
      .next { s with stack := s.stack.set k.val (s.pc + 2) k.isLt, sp := k.succ, pc := zext16 addr } := by
  have hval : s.sp.val = k.val := congrArg Fin.val h
  have hk : k.val < 16 := k.isLt
  have hno : execError (.call addr) s = none := if_neg (by omega)
  rw [exec_of_no_error hno]
  simp [execEffect, hval, Vector.setIfInBounds, Vector.set, Array.setIfInBounds, Fin.succ]

theorem exec_call_of_full {s : State} (addr : Addr) (h : s.sp = 16) :
    exec (.call addr) s = .next { s with fault := some (.stackOverflow s.pc) } :=
  exec_of_error (if_pos (congrArg Fin.val h))

/-! ### The fetch after a transfer -/

/-- A running core whose pc is 0xFFF or above takes the fetch error of R86 and R87. -/
theorem nextFetchFaults_of_ge {s : State} (hf : s.fault = none) (hpc : 4095 ≤ s.pc.toNat) : NextFetchFaults s :=
  step_of_fetch_error hf hpc

theorem toNat_zext16_addr (addr : Addr) : (zext16 addr).toNat = addr.toNat := by
  have := addr.isLt
  rw [BitVec.toNat_setWidth]
  omega

/-- An address and a byte are too small for their sum to wrap at 16 bits. -/
theorem toNat_zext16_add (addr : Addr) (v : Byte) : (zext16 addr + zext16 v : Word).toNat = addr.toNat + v.toNat := by
  have := addr.isLt
  have := v.isLt
  rw [BitVec.toNat_add, BitVec.toNat_setWidth, BitVec.toNat_setWidth]
  omega

/-! ### The statements -/

/-- Settles O17: RET's effect below a non-empty stack, its error at depth 0. -/
theorem retPopsOrUnderflows : Obligations.RetPopsOrUnderflows :=
  ⟨decode_ret, fun _ k => exec_ret_of_pos k, fun _ => exec_ret_of_zero, fun _ => exec_ret_of_zero rfl⟩

/-- Settles O18: a jump, and the fetch error at the one target that is not below 0xFFF. -/
theorem jpSetsPc : Obligations.JpSetsPc := by
  refine ⟨encoding_jp, exec_jp, fun addr s hf hge => ?_⟩
  obtain rfl : addr = 0xFFF := by
    have := addr.isLt
    exact BitVec.eq_of_toNat_eq (by simp; omega)
  exact ⟨rfl, step_of_fetch_error (s := { s with pc := zext16 (0xFFF : Addr) }) hf (hge.trans_eq (toNat_zext16_addr _).symm)⟩

/-- Settles O19: CALL's effect below depth 16, its error at 16. -/
theorem callPushesOrOverflows : Obligations.CallPushesOrOverflows :=
  ⟨encoding_call, fun addr _ k => exec_call_of_lt addr k, fun addr _ => exec_call_of_full addr⟩

/-- Settles O20: a jump to the sum, which as a number decides whether the next fetch fails. -/
theorem jpV0AddsV0 : Obligations.JpV0AddsV0 := by
  refine ⟨encoding_jpV0Nnn, exec_jpV0Nnn, toNat_zext16_add, fun addr s hf hge => ?_⟩
  exact nextFetchFaults_of_ge hf ((toNat_zext16_add addr (s.getV 0)).symm ▸ hge)

/-- Settles O21: both skips are `skipIf` on a comparison with the immediate. -/
theorem skipsOnAnImmediate : Obligations.SkipsOnAnImmediate := by
  refine ⟨encoding_seVxKk, encoding_sneVxKk, fun x kk s => ?_, fun x kk s => ?_, fun s hf hpc => ?_⟩
  · rw [exec_seVxKk, skipIf_eq_of_iff s beq_iff_eq]
  · rw [exec_sneVxKk, skipIf_eq_of_iff s bne_iff_ne]
  · have hland : (s.pc + 4).toNat = 0x1000 := by rw [hpc]; rfl
    exact ⟨hland, nextFetchFaults_of_ge (s := { s with pc := s.pc + 4 }) hf (by rw [hland]; decide)⟩

/-- Settles O48: the call writes the slot that the return reads. -/
theorem callThenReturnComesBack : Obligations.CallThenReturnComesBack := by
  intro addr s hsp
  obtain ⟨k, hk⟩ : ∃ k : Fin 16, s.sp = k.castSucc := (Fin.exists_castSucc_eq.2 hsp).imp fun _ => Eq.symm
  refine ⟨_, _, exec_call_of_lt addr k hk, exec_ret_of_pos k rfl, ?_, hk.symm, ?_⟩
  · simp
  · rw [hk]
    exact (Fin.castSucc_lt_succ).ne'

/-! ### Idling -/

/-- A step that comes to execute an instruction has fetched its word on a running core. -/
theorem of_fetchDecode_eq_run {s t : State} {i : Instr} (h : fetchDecode s = .run i t) :
    s.fault = none ∧ s.pc.toNat < 4095 ∧ decode (fetchedWord s) = .instr i := by
  unfold fetchDecode at h
  rw [fetchWord_eq] at h
  cases hf : s.fault with
  | some e => rw [hf] at h; cases h
  | none =>
    by_cases hpc : s.pc.toNat < 4095
    · rw [hf, if_pos hpc] at h
      dsimp only at h
      cases hd : decode (fetchedWord s) with
      | unknownOpcode w => rw [show decode (bigEndian _ _) = _ from hd] at h; cases h
      | instr j => rw [show decode (bigEndian _ _) = _ from hd] at h; cases h; exact ⟨rfl, hpc, rfl⟩
    · rw [hf, if_neg hpc] at h
      cases h

/-- An idle state is running and fetches a jump to its own pc. -/
theorem of_idle {s : State} (h : s.idle = true) : s.fault = none ∧ s.pc.toNat < 4095 ∧
    ∃ addr, decode (fetchedWord s) = .instr (.jp addr) ∧ zext16 addr = s.pc := by
  unfold State.idle State.nextInstr at h
  cases hfetch : fetchDecode s with
  | stopped e => simp [hfetch] at h
  | error e t => simp [hfetch] at h
  | run i t =>
    obtain ⟨hf, hpc, hd⟩ := of_fetchDecode_eq_run hfetch
    rw [hfetch] at h
    cases i
    case jp addr => exact ⟨hf, hpc, addr, hd, beq_iff_eq.1 h⟩
    all_goals cases h

/-- Settles O51: the step latches the jump and jumps to where it is, and so does every later one. -/
theorem idleStatesStayAsTheyAre : Obligations.IdleStatesStayAsTheyAre := by
  intro s hidle
  obtain ⟨hf, hpc, addr, hd, haddr⟩ := of_idle hidle
  have hjump : (s.latch (fetchedWord s)).jumpTo (zext16 addr) = s.latch (fetchedWord s) := by rw [haddr]; rfl
  refine ⟨s.latch (fetchedWord s), ?_, rfl, ?_⟩
  · rw [step_of_instr hf hpc hd, exec_jp, hjump]
  · rw [step_of_instr (s := s.latch (fetchedWord s)) hf hpc hd, exec_jp]
    exact congrArg _ hjump

end Sys2Proof.Claims
end

section
/-!
Memory (spec/20_memory.md, spec/42_index_memory.md, spec/10_state.md R52): the memory after construction, ADD I, the stores and the
load of R203 to R205, and the fetch of what was stored.
-/
namespace Sys2Proof.Claims

open Sys2Proof.Machine

/-! ### Construction -/

/-- Beyond the font the initial byte is 0. -/
theorem initial_eq_zero_of_ge {a : Nat} (h : 0x0A0 ≤ a) : Memory.initial a = 0 := by
  have hlen : Config.font.length ≤ a - Config.fontBase := by
    have : Config.font.length = 80 := rfl
    simp only [Config.fontBase]
    omega
  simp [Memory.initial, List.getD, List.getElem?_eq_none hlen]

theorem initial_eq_zero_of_lt {a : Nat} (h : a < 0x050) : Memory.initial a = 0 :=
  if_neg (Nat.not_le.2 h)

/-- FONT where it stands, the initial byte elsewhere. -/
theorem read_construct (font : Vector Byte 80) (a : Nat) : (State.construct font).mem.read a =
    if 0x050 ≤ a ∧ a < 0x050 + 80 then font.toList.getD (a - 0x050) 0 else Memory.initial a := by
  have hlen : font.toList.length = 80 := font.length_toList
  have hread := Memory.read_writeBytes (m := []) rfl (a := 0x050) (vs := font.toList) (by rw [hlen]; decide) a
  rwa [hlen] at hread

/-- Settles O14: construction stores FONT and touches nothing else of the reset state. -/
theorem constructionGivesTheResetTable : Obligations.ConstructionGivesTheResetTable := by
  intro font
  refine ⟨fun a ha => ?_, fun k => ?_, fun a hge _ => ?_, fun x => ?_, rfl, rfl, fun k => ?_, rfl, rfl, rfl,
    FrameBuffer.pixel_blank, rfl, fun k => ?_, rfl, rfl⟩
  · rw [read_construct, if_neg (by omega), initial_eq_zero_of_lt ha]
  · have hk : k.val < 80 := k.isLt
    rw [read_construct, if_pos (by omega), Nat.add_sub_cancel_left]
    simp [List.getD]
  · rw [read_construct, if_neg (by omega), initial_eq_zero_of_ge hge]
  · exact Vector.getElem_replicate ..
  · exact Vector.getElem_replicate ..
  · exact Vector.getElem_replicate ..

/-- Writing what an address holds after construction leaves memory without a listing. -/
theorem writeBytes_nil_of_initial {a : Nat} {vs : List Byte}
    (h : ∀ k (hk : k < vs.length), vs[k] = Memory.initial (a + k)) : Memory.writeBytes [] a vs = [] := by
  induction vs generalizing a with
  | nil => rfl
  | cons v vs ih =>
    have hv : v = Memory.initial a := h 0 (by simp)
    have hwrite : Memory.write [] a v = [] := by simp [Memory.write, Memory.insert, hv]
    rw [Memory.writeBytes, hwrite]
    refine ih fun k hk => ?_
    rw [Nat.add_right_comm]
    exact h (k + 1) (by simpa using hk)

/-- Settles O15: the default FONT is what memory holds after construction. -/
theorem resetIsConstructionWithTheDefaultFont : Obligations.ResetIsConstructionWithTheDefaultFont := by
  have hmem : Memory.writeBytes [] 0x050 Config.font = [] := by
    refine writeBytes_nil_of_initial fun k hk => ?_
    rw [Memory.initial, if_pos (Nat.le_add_right ..), Nat.add_sub_cancel_left]
    simp [List.getD, hk]
  exact congrArg (fun m => { State.reset with mem := m }) hmem

/-! ### The index register -/

@[simp] theorem exec_addIVx (x : Nibble) (s : State) :
    exec (.addIVx x) s = .next (s.setI (s.I + zext16 (s.getV x))).advance := rfl

theorem word_add_byte_eq (w : Word) (v : Byte) : w + zext16 v = BitVec.ofNat 16 ((w.toNat + v.toNat) % 65536) := by
  have := v.isLt
  apply BitVec.eq_of_toNat_eq
  rw [BitVec.toNat_add, BitVec.toNat_setWidth, BitVec.toNat_ofNat]
  omega

/-- Settles O31: one index write, of the sum modulo 65536. -/
theorem addToIndexWrapsAt16Bits : Obligations.AddToIndexWrapsAt16Bits :=
  ⟨encoding_addIVx, fun x s => by rw [exec_addIVx, setI_advance_eq, word_add_byte_eq]⟩

/-! ### Stores and loads -/

/-- The range check of R87 for the `n + 1` bytes from I on. -/
theorem rangeError_succ_of_lt {w : Word} {n : Nat} (h : w.toNat + n < 4096) :
    (rangeError w (n + 1)).map FatalError.memoryOutOfRange = none := by
  rw [rangeError_none.2 (.inr h)]
  rfl

theorem rangeError_succ_of_ge {w : Word} {n : Nat} (h : 4096 ≤ w.toNat + n) :
    (rangeError w (n + 1)).map FatalError.memoryOutOfRange = some (.memoryOutOfRange (max w.toNat 4096)) := by
  rw [rangeError_some.2 ⟨⟨Nat.succ_ne_zero n, Nat.lt_succ_of_le h⟩, rfl⟩]
  rfl

/-- Where an effect stores: byte `k` of its list at `I + k`, every other byte as before. -/
theorem read_execEffect_inside {i : Instr} {s : State} (hwf : s.mem.wf = true) (h : execError i s = none) {k : Nat}
    (hk : k < (storedBytes i s).length) : (execEffect i s).mem.read (s.I.toNat + k) = (storedBytes i s)[k] := by
  have hk' : k < storedLength i := length_storedBytes i s ▸ hk
  rw [read_execEffect hwf h, if_pos (by omega), Nat.add_sub_cancel_left]
  exact List.getD_eq_getElem _ _ hk

/-- The digit of FX33 at place `k` (R203), as a number. -/
theorem toNat_bcdDigits (v : Byte) (k : Fin 3) : ((bcdDigits v)[k.val]'k.isLt).toNat = v.toNat / 10 ^ (2 - k.val) % 10 := by
  have hv := v.isLt
  match k with
  | 0 => simp [bcdDigits]; omega
  | 1 => simp [bcdDigits]
  | 2 => simp [bcdDigits]

theorem getElem_regsTo (s : State) (x k : Nibble) (h : k.toNat < (s.regsTo x).length) :
    (s.regsTo x)[k.toNat] = s.getV k := by
  simp [State.regsTo]

/-- FX33's bytes, read back. -/
theorem read_exec_ldBVx {x : Nibble} {s : State} (hwf : s.mem.wf = true) (h : s.I.toNat + 2 < 4096) (k : Fin 3) :
    ((execEffect (.ldBVx x) s).mem.read (s.I.toNat + k.val)).toNat = (s.getV x).toNat / 10 ^ (2 - k.val) % 10 := by
  rw [read_execEffect_inside (i := .ldBVx x) hwf (rangeError_succ_of_lt h) k.isLt]
  exact toNat_bcdDigits ..

/-- FX55's bytes, read back. -/
theorem read_exec_ldMiVx {x k : Nibble} {s : State} (hwf : s.mem.wf = true) (h : s.I.toNat + x.toNat < 4096)
    (hk : k.toNat ≤ x.toNat) : (execEffect (.ldMiVx x) s).mem.read (s.I.toNat + k.toNat) = s.getV k := by
  have hlt : k.toNat < (storedBytes (.ldMiVx x) s).length := by
    rw [length_storedBytes]
    exact Nat.lt_succ_of_le hk
  rw [read_execEffect_inside (i := .ldMiVx x) hwf (rangeError_succ_of_lt h) hlt]
  exact getElem_regsTo s x k hlt

/-- Settles O32: the effect stores the digits, and the range check alone raises. -/
theorem bcdStoresThreeDigits : Obligations.BcdStoresThreeDigits := by
  refine ⟨encoding_ldBVx, fun x s hwf h => ?_, fun x s h => exec_of_error (rangeError_succ_of_ge h)⟩
  have hno : execError (.ldBVx x) s = none := rangeError_succ_of_lt h
  have hv := (s.getV x).isLt
  refine ⟨_, exec_of_no_error hno, rfl, (read_exec_ldBVx hwf h 0).trans ?_, read_exec_ldBVx hwf h 1,
    (read_exec_ldBVx hwf h 2).trans ?_, fun a ha => ?_⟩
  · simp; omega
  · simp
  · exact memoryChangesOnlyInTheStoredRange _ s _ a hwf (exec_of_no_error hno) (by simp only [storedLength]; omega)

/-- Settles O33: the effect stores the registers, and the range check alone raises. -/
theorem registerStoreIsInclusive : Obligations.RegisterStoreIsInclusive := by
  refine ⟨encoding_ldMiVx, fun x s hwf h => ?_, fun x s h => exec_of_error (rangeError_succ_of_ge h)⟩
  have hno : execError (.ldMiVx x) s = none := rangeError_succ_of_lt h
  refine ⟨_, exec_of_no_error hno, rfl, fun k hk => read_exec_ldMiVx hwf h hk, fun a ha => ?_⟩
  exact memoryChangesOnlyInTheStoredRange _ s _ a hwf (exec_of_no_error hno) (by simp only [storedLength]; omega)

/-- Settles O34: the effect writes V0..V[X] one by one, and the range check alone raises. -/
theorem registerLoadIsInclusive : Obligations.RegisterLoadIsInclusive := by
  refine ⟨encoding_ldVxMi, fun x s h => ?_, fun x s h => exec_of_error (rangeError_succ_of_ge h)⟩
  have hno : execError (.ldVxMi x) s = none := rangeError_succ_of_lt h
  refine ⟨_, exec_of_no_error hno, ?_, fun k hk => ?_, fun k hk => ?_⟩
  · exact congrArg State.advance (State.setRegs_frame ..)
  · exact (getV_setRegs_bytesAtI s x k).trans (if_pos hk)
  · exact (getV_setRegs_bytesAtI s x k).trans (if_neg (Nat.not_le.2 hk))

/-- Settles O50: the fetch reads the two bytes at pc and pc + 1, and the stored ones read back. -/
theorem storedBytesAreFetched : Obligations.StoredBytesAreFetched := by
  have hfetch : ∀ {m : Memory} {u : State}, u.mem = m → u.pc.toNat < 4095 →
      fetchWord u = .ok (bigEndian (m.read u.pc.toNat) (m.read (u.pc.toNat + 1))) := by
    rintro _ u rfl hpc
    rw [fetchWord_eq, if_pos hpc]
  constructor
  · intro x s hwf h
    have hno : execError (.ldMiVx x) s = none := rangeError_succ_of_lt h
    refine ⟨_, exec_of_no_error hno, fun u hmem hpc => ⟨_, _, hfetch hmem hpc, fun k hk => ⟨fun ha => ?_, fun ha => ?_⟩⟩⟩
    · rw [ha, read_exec_ldMiVx hwf h hk]
    · rw [ha, read_exec_ldMiVx hwf h hk]
  · intro x s hwf h
    have hno : execError (.ldBVx x) s = none := rangeError_succ_of_lt h
    refine ⟨_, exec_of_no_error hno, fun u hmem hpc => ⟨_, _, hfetch hmem hpc, fun k => ⟨fun ha => ?_, fun ha => ?_⟩⟩⟩
    · rw [ha, read_exec_ldBVx hwf h]
    · rw [ha, read_exec_ldBVx hwf h]

end Sys2Proof.Claims
end

section
/-!
DRW (spec/43_display.md R230 to R234). The loop of R232 is a run over the list of the sprite's pixels, no two of which are the same;
so each pixel is tested and toggled at most once, and the closed form of R233 follows.
-/
namespace Sys2Proof.Claims

open Sys2Proof.Machine

/-! ### The loop as a run over a list of pixels -/

/-- The loop body of R232 on each pixel of a list. -/
def drawPixels (ps : List (Fin 64 × Fin 32)) (d : FrameBuffer × Byte) : FrameBuffer × Byte :=
  ps.foldl (fun d p => drawPixel p.1 p.2 d) d

/-- The pixels under the 1-bits of row `r` of the sprite (R230). -/
def rowPixels (x0 y0 r : Nat) (row : Byte) : List (Fin 64 × Fin 32) :=
  ((List.range 8).filter fun c => row.getLsbD (7 - c)).map fun c => (wrapX x0 c, wrapY y0 r)

/-- The pixels under the 1-bits of the rows from row `r` on. -/
def spritePixels (x0 y0 : Nat) : Nat → List Byte → List (Fin 64 × Fin 32)
  | _, [] => []
  | r, row :: rows => rowPixels x0 y0 r row ++ spritePixels x0 y0 (r + 1) rows

theorem drawRow_eq_drawPixels (x0 y0 r : Nat) (row : Byte) (d : FrameBuffer × Byte) :
    drawRow x0 y0 r row d = drawPixels (rowPixels x0 y0 r row) d := by
  rw [drawRow, drawPixels, rowPixels, List.foldl_map, List.foldl_filter]

theorem drawRows_eq_drawPixels (x0 y0 r : Nat) (rows : List Byte) (d : FrameBuffer × Byte) :
    drawRows x0 y0 r rows d = drawPixels (spritePixels x0 y0 r rows) d := by
  induction rows generalizing r d with
  | nil => rfl
  | cons row rows ih =>
    rw [drawRows, ih, drawRow_eq_drawPixels, spritePixels, drawPixels, drawPixels, drawPixels, List.foldl_append]

/-! ### A run over different pixels -/

/-- Each listed pixel is flipped and no other one changes. -/
theorem pixel_drawPixels {ps : List (Fin 64 × Fin 32)} (hps : ps.Nodup) (d : FrameBuffer × Byte) (x : Fin 64) (y : Fin 32) :
    (drawPixels ps d).1.pixel x y = (d.1.pixel x y ^^ decide ((x, y) ∈ ps)) := by
  induction ps generalizing d with
  | nil => simp [drawPixels]
  | cons p ps ih =>
    obtain ⟨hp, hps⟩ := List.nodup_cons.1 hps
    have hrest := ih hps (drawPixel p.1 p.2 d)
    rw [drawPixels, List.foldl_cons, ← drawPixels, hrest, drawPixel, FrameBuffer.pixel_toggle]
    by_cases hxy : x = p.1 ∧ y = p.2
    · obtain ⟨rfl, rfl⟩ := hxy
      simp [hp]
    · have hne : (x, y) ≠ p := fun h => hxy (by simp [← h])
      simp [hxy, hne]

/-- The flag becomes 1 if a listed pixel was set, and else keeps its value. -/
theorem flag_drawPixels {ps : List (Fin 64 × Fin 32)} (hps : ps.Nodup) (d : FrameBuffer × Byte) :
    (drawPixels ps d).2 = if ∃ p ∈ ps, d.1.pixel p.1 p.2 = true then 1 else d.2 := by
  induction ps generalizing d with
  | nil => simp [drawPixels]
  | cons p ps ih =>
    obtain ⟨hp, hps⟩ := List.nodup_cons.1 hps
    have hsame : ∀ q ∈ ps, (d.1.toggle p.1 p.2).pixel q.1 q.2 = d.1.pixel q.1 q.2 := by
      intro q hq
      have hne : ¬ (q.1 = p.1 ∧ q.2 = p.2) := fun h => hp (Prod.ext h.1 h.2 ▸ hq)
      rw [FrameBuffer.pixel_toggle, if_neg hne]
    have hlater : (∃ q ∈ ps, (d.1.toggle p.1 p.2).pixel q.1 q.2 = true) ↔ ∃ q ∈ ps, d.1.pixel q.1 q.2 = true :=
      exists_congr fun q => and_congr_right fun hq => by rw [hsame q hq]
    rw [drawPixels, List.foldl_cons, ← drawPixels, ih hps, drawPixel]
    simp only [hlater, List.exists_mem_cons_iff]
    by_cases hfirst : d.1.pixel p.1 p.2 = true
    · simp [hfirst]
    · simp [hfirst]

/-! ### The pixels of a sprite -/

theorem mem_spritePixels {x0 y0 r : Nat} {rows : List Byte} {p : Fin 64 × Fin 32} : p ∈ spritePixels x0 y0 r rows ↔
    ∃ k, ∃ h : k < rows.length, ∃ c < 8, rows[k].getLsbD (7 - c) = true ∧ (wrapX x0 c, wrapY y0 (r + k)) = p := by
  induction rows generalizing r with
  | nil => simp [spritePixels]
  | cons row rows ih =>
    rw [spritePixels, List.mem_append, ih, rowPixels]
    constructor
    · rintro (hp | ⟨k, hk, c, hc, hbit, hp⟩)
      · obtain ⟨c, hc, rfl⟩ := List.mem_map.1 hp
        obtain ⟨hc, hbit⟩ := List.mem_filter.1 hc
        exact ⟨0, by simp, c, List.mem_range.1 hc, hbit, rfl⟩
      · exact ⟨k + 1, by simpa using hk, c, hc, hbit, by rw [← hp, Nat.add_right_comm, Nat.add_assoc]⟩
    · rintro ⟨k, hk, c, hc, hbit, rfl⟩
      cases k with
      | zero => exact .inl (List.mem_map.2 ⟨c, List.mem_filter.2 ⟨List.mem_range.2 hc, hbit⟩, rfl⟩)
      | succ k => exact .inr ⟨k, by simpa using hk, c, hc, hbit, by rw [Nat.add_right_comm, Nat.add_assoc]⟩

/-- Eight columns in a row of 64 are different. -/
theorem wrapX_inj {x0 c c' : Nat} (hc : c < 8) (hc' : c' < 8) (h : wrapX x0 c = wrapX x0 c') : c = c' := by
  have := congrArg Fin.val h
  simp only [wrapX] at this
  omega

/-- At most 32 rows in a column of 32 are different. -/
theorem wrapY_inj {y0 r r' : Nat} (hr : r < 32) (hr' : r' < 32) (h : wrapY y0 r = wrapY y0 r') : r = r' := by
  have := congrArg Fin.val h
  simp only [wrapY] at this
  omega

theorem nodup_rowPixels (x0 y0 r : Nat) (row : Byte) : (rowPixels x0 y0 r row).Nodup := by
  refine List.Nodup.map_on ?_ (List.nodup_range.filter _)
  intro c hc c' hc' h
  exact wrapX_inj (List.mem_range.1 (List.mem_filter.1 hc).1) (List.mem_range.1 (List.mem_filter.1 hc').1)
    (congrArg Prod.fst h)

/-- No pixel lies under two bits of a sprite of at most 32 rows. -/
theorem nodup_spritePixels (x0 y0 r : Nat) (rows : List Byte) (h : r + rows.length ≤ 32) :
    (spritePixels x0 y0 r rows).Nodup := by
  induction rows generalizing r with
  | nil => exact List.nodup_nil
  | cons row rows ih =>
    rw [List.length_cons] at h
    refine List.Nodup.append (nodup_rowPixels ..) (ih (r + 1) (by omega)) ?_
    intro p hp hp'
    obtain ⟨c, -, rfl⟩ := List.mem_map.1 hp
    obtain ⟨k, hk, c', -, -, heq⟩ := mem_spritePixels.1 hp'
    have hrow : r + 1 + k = r := wrapY_inj (by omega) (by omega) (congrArg Prod.snd heq)
    omega

/-! ### The effect of DRW -/

/-- The pixels of the sprite of DXYN, from entry values. -/
def drwPixels (s : State) (x y n : Nibble) : List (Fin 64 × Fin 32) :=
  spritePixels ((s.getV x).toNat % 64) ((s.getV y).toNat % 32) 0 (s.bytesAtI n.toNat)

theorem nodup_drwPixels (s : State) (x y n : Nibble) : (drwPixels s x y n).Nodup := by
  have hn : n.toNat < 16 := n.isLt
  exact nodup_spritePixels _ _ _ _ (by rw [length_bytesAtI]; omega)

/-- `covers` lists the sprite's pixels. -/
theorem covers_iff {s : State} {x y n : Nibble} {px : Fin 64} {py : Fin 32} :
    covers s x y n px py = true ↔ (px, py) ∈ drwPixels s x y n := by
  simp [covers, drwPixels, mem_spritePixels, State.bytesAtI, wrapX, wrapY, Fin.ext_iff, and_assoc,
    @eq_comm Nat px.val, @eq_comm Nat py.val]

theorem drawSprite_FB (s : State) (x y n : Nibble) :
    (s.drawSprite x y n).FB = (drawPixels (drwPixels s x y n) (s.FB, s.getV VF)).1 := by
  rw [State.drawSprite, drwPixels, drawRows_eq_drawPixels]

theorem getV_VF_drawSprite (s : State) (x y n : Nibble) :
    (s.drawSprite x y n).getV VF = (drawPixels (drwPixels s x y n) (s.FB, s.getV VF)).2 := by
  rw [drwPixels, ← drawRows_eq_drawPixels]
  exact State.getV_setV_same ..

theorem pixel_drawSprite (s : State) (x y n : Nibble) (px : Fin 64) (py : Fin 32) :
    (s.drawSprite x y n).FB.pixel px py = (s.FB.pixel px py ^^ covers s x y n px py) := by
  rw [drawSprite_FB, pixel_drawPixels (nodup_drwPixels ..), Bool.eq_iff_iff.2 (covers_iff.trans decide_eq_true_iff.symm)]

/-- A collision: a covered pixel that was set. -/
def Collides (s : State) (x y n : Nibble) : Prop :=
  ∃ px py, covers s x y n px py = true ∧ s.FB.pixel px py = true

theorem getV_VF_drawSprite_of_collides {s : State} {x y n : Nibble} (h : Collides s x y n) :
    (s.drawSprite x y n).getV VF = 1 := by
  obtain ⟨px, py, hcover, hpixel⟩ := h
  rw [getV_VF_drawSprite, flag_drawPixels (nodup_drwPixels ..), if_pos ⟨(px, py), covers_iff.1 hcover, hpixel⟩]

theorem getV_VF_drawSprite_of_not_collides {s : State} {x y n : Nibble} (h : ¬ Collides s x y n) :
    (s.drawSprite x y n).getV VF = s.getV VF := by
  rw [getV_VF_drawSprite, flag_drawPixels (nodup_drwPixels ..), if_neg]
  rintro ⟨p, hp, hpixel⟩
  exact h ⟨p.1, p.2, covers_iff.2 hp, hpixel⟩

theorem exec_drw_of_range {x y n : Nibble} {s : State} (h : n = 0 ∨ s.I.toNat + n.toNat ≤ 4096) :
    exec (.drw x y n) s = .next (s.drawSprite x y n).advance := by
  have hrange : rangeError s.I n.toNat = none := rangeError_none.2 (h.imp_left fun hn => congrArg BitVec.toNat hn)
  exact exec_of_no_error (i := .drw x y n) (Option.map_eq_none_iff.2 hrange)

theorem exec_drw_of_not_range {x y n : Nibble} {s : State} (hn : n ≠ 0) (h : 4096 < s.I.toNat + n.toNat) :
    exec (.drw x y n) s = .next { s with fault := some (.memoryOutOfRange (max s.I.toNat 4096)) } := by
  have hn' : n.toNat ≠ 0 := fun h0 => hn (BitVec.eq_of_toNat_eq h0)
  have hrange : rangeError s.I n.toNat = some (max s.I.toNat 4096) := rangeError_some.2 ⟨⟨hn', h⟩, rfl⟩
  exact exec_of_error (i := .drw x y n) (congrArg (Option.map FatalError.memoryOutOfRange) hrange)

/-! ### The statements -/

/-- Settles O36: the closed form of the run over the sprite's pixels, and the range check. -/
theorem drawXorsTheSprite : Obligations.DrawXorsTheSprite := by
  refine ⟨encoding_drw, fun x y n s hrange => ?_, fun x y n s => exec_drw_of_not_range⟩
  refine ⟨_, exec_drw_of_range hrange, rfl, pixel_drawSprite s x y n, getV_VF_drawSprite_of_collides, fun h => ?_,
    fun r => getV_drawSprite_of_ne⟩
  refine getV_VF_drawSprite_of_not_collides ?_
  rintro ⟨px, py, hcover, hpixel⟩
  rw [h px py hcover] at hpixel
  cases hpixel

/-- Settles O37: at the same place the second run covers the same pixels, so it flips them back; a covered pixel is set before the
first run or before the second, and so one of them collides. -/
theorem drawingTwiceRestoresTheFramebuffer : Obligations.DrawingTwiceRestoresTheFramebuffer := by
  intro x y n s t u hrange ht hu hx hy
  cases (exec_drw_of_range hrange).symm.trans ht
  cases (exec_drw_of_range (s := (s.drawSprite x y n).advance) hrange).symm.trans hu
  have hcovers : covers (s.drawSprite x y n).advance x y n = covers s x y n := by
    funext px py
    simp only [covers, hx, hy]
    rfl
  refine ⟨FrameBuffer.ext_pixel fun px py => ?_, ?_⟩
  · have hsecond := pixel_drawSprite (s.drawSprite x y n).advance x y n px py
    rw [hcovers] at hsecond
    exact hsecond.trans (by rw [State.advance_FB, pixel_drawSprite, Bool.xor_assoc, Bool.xor_self, Bool.xor_false])
  · rintro ⟨px, py, hcover⟩
    by_cases hcollides : Collides (s.drawSprite x y n).advance x y n
    · exact getV_VF_drawSprite_of_collides hcollides
    · refine (getV_VF_drawSprite_of_not_collides hcollides).trans ?_
      refine getV_VF_drawSprite_of_collides ⟨px, py, hcover, ?_⟩
      by_contra hclear
      refine hcollides ⟨px, py, by rw [hcovers, hcover], ?_⟩
      rw [State.advance_FB, pixel_drawSprite, hcover]
      simpa using hclear

end Sys2Proof.Claims
end

section
/-!
Random byte, keypad and timers (spec/41_alu.md R182, spec/44_keys_timers.md R260 to R265, spec/70_reset_and_hazards.md R363).
-/
namespace Sys2Proof.Claims

open Sys2Proof.Machine

/-! ### The meanings, as the operation on the state each of them is -/

@[simp] theorem exec_rnd (x : Nibble) (kk : Byte) (s : State) :
    exec (.rnd x kk) s = .next (rndWith (Config.randByte s.draws) x kk s) := rfl

@[simp] theorem exec_ldVxK (x : Nibble) (s : State) :
    exec (.ldVxK x) s = .next (waitKeyWith (Config.keyChoice s.draws) x s) := rfl

/-- Settles O29: the masked byte goes to V[X], whichever byte is drawn. -/
theorem rndMasksAFreshDraw : Obligations.RndMasksAFreshDraw :=
  ⟨encoding_rnd, exec_rnd, fun rand x kk s => State.getV_setV_same s x (rand &&& kk)⟩

/-! ### The keypad -/

theorem keyLevel_of_toNat {s : State} {v : Byte} {k : Fin 16} (h : v.toNat = k.val) : keyLevel s v = s.keys[k] := by
  simp [keyLevel, h]

theorem exec_skp_of_key {x : Nibble} {s : State} {k : Fin 16} (h : (s.getV x).toNat = k.val) :
    exec (.skp x) s = .next (s.skipIf s.keys[k]) := by
  have hno : execError (.skp x) s = none := if_neg (by omega)
  rw [exec_of_no_error hno, execEffect, keyLevel_of_toNat h]

theorem exec_sknp_of_key {x : Nibble} {s : State} {k : Fin 16} (h : (s.getV x).toNat = k.val) :
    exec (.sknp x) s = .next (s.skipIf (!s.keys[k])) := by
  have hno : execError (.sknp x) s = none := if_neg (by omega)
  rw [exec_of_no_error hno, execEffect, keyLevel_of_toNat h]

/-- Settles O38: both skips are `skipIf` on the key's level, and the index check alone raises. -/
theorem keySkipsTestTheLevel : Obligations.KeySkipsTestTheLevel := by
  refine ⟨encoding_skp, encoding_sknp, fun x s k hk => exec_skp_of_key hk, fun x s k hk => ?_, fun x s hx =>
    ⟨exec_of_error (if_pos hx), exec_of_error (if_pos hx)⟩⟩
  rw [exec_sknp_of_key hk, State.skipIf]
  cases s.keys[k] <;> rfl

/-- The draw takes the entry of the list of down keys at the choice's place, modulo the list's length. -/
theorem selectKey_eq_getElem? (choice : Nat) (keys : Vector Bool 16) :
    selectKey choice keys = (downKeys keys)[choice % (downKeys keys).length]? := by
  unfold selectKey
  split
  case h_1 hl => rw [hl]; rfl
  case h_2 k hl => rw [hl, List.length_singleton, Nat.mod_one]; rfl
  case h_3 k l ks hl => rw [hl]; rfl

theorem down_of_selectKey {choice : Nat} {keys : Vector Bool 16} {k : Fin 16} (h : selectKey choice keys = some k) :
    keys[k] = true :=
  mem_downKeys.1 (List.mem_of_getElem? (selectKey_eq_getElem? choice keys ▸ h))

/-- Settles O42: what is drawn is down, and a key that is down is drawn by the choice of its place in the list. -/
theorem keyDrawRangesOverTheDownKeys : Obligations.KeyDrawRangesOverTheDownKeys := by
  refine fun keys k => ⟨fun ⟨choice, h⟩ => down_of_selectKey h, fun hdown => ?_⟩
  obtain ⟨i, hi, hk⟩ := List.getElem_of_mem (mem_downKeys.2 hdown)
  exact ⟨i, by rw [selectKey_eq_getElem?, Nat.mod_eq_of_lt hi, List.getElem?_eq_getElem hi, hk]⟩

/-- With a key down the draw finds one. -/
theorem selectKey_ne_none {keys : Vector Bool 16} {k : Fin 16} (h : keys[k] = true) (choice : Nat) :
    selectKey choice keys ≠ none := by
  have hpos : 0 < (downKeys keys).length := List.length_pos_of_mem (mem_downKeys.2 h)
  rw [selectKey_eq_getElem?, List.getElem?_eq_getElem (Nat.mod_lt _ hpos)]
  exact Option.some_ne_none _

/-- Settles O41: FX0A by whether the draw finds a key. -/
theorem keyWaitCapturesADownKey : Obligations.KeyWaitCapturesADownKey := by
  refine ⟨encoding_ldVxK, fun x s hup => ?_, fun x s ⟨k, hk⟩ => ?_⟩
  · cases hselect : selectKey (Config.keyChoice s.draws) s.keys with
    | none => rw [exec_ldVxK, waitKeyWith, hselect]
    | some l => exact absurd (down_of_selectKey hselect) (by rw [hup l]; exact Bool.false_ne_true)
  · obtain ⟨l, hselect⟩ := Option.ne_none_iff_exists'.1 (selectKey_ne_none hk (Config.keyChoice s.draws))
    refine ⟨l, down_of_selectKey hselect, ?_⟩
    rw [exec_ldVxK, waitKeyWith, hselect]
    rfl

/-! ### The delay timer -/

theorem toNat_tick (t : Byte) : (tick t).toNat = t.toNat - 1 := by
  unfold tick
  split
  · next h => rw [h]; rfl
  · next h =>
    have hpos : t.toNat ≠ 0 := fun h0 => h (BitVec.eq_of_toNat_eq h0)
    have := t.isLt
    rw [BitVec.toNat_sub]
    simp
    omega

theorem toNat_DT_iterate_tick60 (k : Nat) (s : State) : (Nat.iterate State.tick60 k s).DT.toNat = s.DT.toNat - k := by
  induction k generalizing s with
  | zero => rfl
  | succ k ih => rw [Nat.iterate, ih, State.tick60_DT, toNat_tick, Nat.sub_sub, Nat.add_comm]

/-- Settles O49: the timer takes V[X], each tick takes one off, and the load reads it. -/
theorem delayTimerReadsBackLessTheTicks : Obligations.DelayTimerReadsBackLessTheTicks := by
  intro x y k s
  refine ⟨_, _, exec_ldDtVx x s, exec_ldVxDt y _, ?_⟩
  rw [State.getV_advance, State.getV_setV_same, toNat_DT_iterate_tick60]

end Sys2Proof.Claims
end

section
/-!
The host's ports (spec/60_exceptions.md R309, R320 to R340) and the program load (spec/70_reset_and_hazards.md R355 to R357), one
transaction at a time and over a run.
-/
namespace Sys2Proof.Claims

open Sys2Proof.Machine

/-! ### STEP on a stopped core -/

theorem transact_step_of_stopped {c : Session} {e : FatalError} (h : c.core.fault = some e) :
    c.transact .step = .next (⟨c.core, false⟩, .fault e) := by
  rw [Session.transact, Session.step, step_of_stopped h]

/-- No transaction but STEP touches the fault status. -/
theorem fault_of_transact {τ : Transaction} {c d : Session} {r : Response} (h : c.transact τ = .next (d, r))
    (hτ : τ ≠ .step) : d.core.fault = c.core.fault := by
  rcases Session.transact_cases h with ⟨rfl, -⟩ | ⟨-, rfl, -⟩ | ⟨k, b, -, -, rfl, -⟩ |
    ⟨bytes, -, -, -, ⟨-, hd, -⟩ | ⟨-, hd, -⟩⟩ | ⟨-, rfl, -⟩ | ⟨v, -, rfl, -⟩ | ⟨v, -, rfl, -⟩ | ⟨rfl, -⟩
  case inl => exact absurd rfl hτ
  case inr.inr.inr.inl.inl => rw [hd]; rfl
  case inr.inr.inr.inl.inr => rw [hd]
  all_goals rfl

/-- Every port but LOAD has an answer, SET_KEY for the indexes it can carry. -/
theorem exists_transact {τ : Transaction} (c : Session) (hload : ∀ b, τ ≠ .load b)
    (hkey : ∀ k b, τ = .setKey k b → k ≤ 15) : ∃ d r, c.transact τ = .next (d, r) := by
  cases τ
  case step =>
    cases hf : c.core.fault with
    | some e => exact ⟨_, _, transact_step_of_stopped hf⟩
    | none =>
      obtain ⟨t, ht⟩ := step_next_of_running hf
      exact ⟨_, _, transact_step_of_next ht⟩
  case setKey k b => exact ⟨_, _, if_pos (Nat.lt_succ_of_le (hkey k b rfl))⟩
  case load b => exact absurd rfl (hload b)
  all_goals exact ⟨_, _, rfl⟩

/-- Settles O10: STEP repeats the fault, and no other port touches it. -/
theorem stoppedCoreStaysStopped : Obligations.StoppedCoreStaysStopped := by
  intro c e hf
  refine ⟨transact_step_of_stopped hf, fun τ d r h => ?_, fun τ => exists_transact c⟩
  by_cases hτ : τ = .step
  · subst hτ
    cases (transact_step_of_stopped hf).symm.trans h
    exact hf
  · exact (fault_of_transact h hτ).trans hf

/-! ### The invariant over a run -/

/-- The invariant reads memory, fault, latch, pc, sp, I and V alone; every port but STEP and LOAD keeps them. -/
theorem inv_of_transact {τ : Transaction} {c d : Session} {r : Response} (hinv : c.core.Inv)
    (h : c.transact τ = .next (d, r)) : d.core.Inv := by
  rcases Session.transact_cases h with ⟨-, -, ⟨hstep, -⟩ | ⟨e, -, hd, -⟩⟩ | ⟨-, rfl, -⟩ | ⟨k, b, -, -, rfl, -⟩ |
    ⟨bytes, -, -, -, ⟨-, hd, -⟩ | ⟨-, hd, -⟩⟩ | ⟨-, rfl, -⟩ | ⟨v, -, rfl, -⟩ | ⟨v, -, rfl, -⟩ | ⟨rfl, -⟩
  case inl.inl => exact everyStepKeepsTheInvariant _ _ hinv hstep
  case inl.inr => exact hd ▸ hinv
  case inr.inr.inr.inl.inl =>
    obtain ⟨hwf, hexplained⟩ := hinv
    rw [hd]
    exact ⟨Memory.writeBytes_wf hwf .., hexplained⟩
  case inr.inr.inr.inl.inr => exact hd ▸ hinv
  all_goals exact hinv

/-- Settles O13, by induction on the transactions. -/
theorem everyRunKeepsTheInvariant : Obligations.EveryRunKeepsTheInvariant := by
  intro τs
  induction τs with
  | nil => intro c d hinv hrun; cases hrun; exact hinv
  | cons τ τs ih =>
    intro c d hinv hrun
    rw [Session.run] at hrun
    cases htransact : c.transact τ with
    | next p => rw [htransact] at hrun; exact ih p.1 d (inv_of_transact hinv htransact) hrun
    | fault e => rw [htransact] at hrun; cases hrun
    | refused e => rw [htransact] at hrun; cases hrun

/-! ### The timers -/

/-- Each timer after a step: as it was, or a register's value. -/
theorem timers_of_step {s t : State} (h : step s = .next t) :
    (t.DT = s.DT ∨ ∃ x, t.DT = s.getV x) ∧ (t.ST = s.ST ∨ ∃ x, t.ST = s.getV x) := by
  obtain ⟨-, ⟨-, rfl⟩ | ⟨-, ⟨-, rfl⟩ | ⟨i, -, ⟨e, -, rfl⟩ | rfl⟩⟩⟩ := step_next_cases h
  case inr.inr.inr =>
    exact ⟨(execEffect_DT i _).imp_right fun ⟨x, _, hx⟩ => ⟨x, hx⟩, (execEffect_ST i _).imp_right fun ⟨x, _, hx⟩ => ⟨x, hx⟩⟩
  all_goals exact ⟨.inl rfl, .inl rfl⟩

/-- What a transaction other than TICK60 can do to the timers. -/
theorem timers_of_transact {τ : Transaction} {c d : Session} {r : Response} (h : c.transact τ = .next (d, r))
    (hτ : τ ≠ .tick60) :
    (d.core.DT = c.core.DT ∨ (∃ v, τ = .dtWr v ∧ d.core.DT = v) ∨ τ = .step ∧ ∃ x, d.core.DT = c.core.getV x) ∧
    (d.core.ST = c.core.ST ∨ (∃ v, τ = .stWr v ∧ d.core.ST = v) ∨ τ = .step ∧ ∃ x, d.core.ST = c.core.getV x) := by
  rcases Session.transact_cases h with ⟨rfl, -, ⟨hstep, -⟩ | ⟨e, -, hd, -⟩⟩ | ⟨rfl, -⟩ | ⟨k, b, -, -, rfl, -⟩ |
    ⟨bytes, -, -, -, ⟨-, hd, -⟩ | ⟨-, hd, -⟩⟩ | ⟨-, rfl, -⟩ | ⟨v, rfl, rfl, -⟩ | ⟨v, rfl, rfl, -⟩ | ⟨rfl, -⟩
  case inl.inl =>
    obtain ⟨hDT, hST⟩ := timers_of_step hstep
    exact ⟨hDT.imp_right fun hx => .inr ⟨rfl, hx⟩, hST.imp_right fun hx => .inr ⟨rfl, hx⟩⟩
  case inr.inl => exact absurd rfl hτ
  case inl.inr | inr.inr.inr.inl.inl | inr.inr.inr.inl.inr => rw [hd]; exact ⟨.inl rfl, .inl rfl⟩
  case inr.inr.inr.inr.inr.inl => exact ⟨.inr (.inl ⟨v, rfl, rfl⟩), .inl rfl⟩
  case inr.inr.inr.inr.inr.inr.inl => exact ⟨.inl rfl, .inr (.inl ⟨v, rfl, rfl⟩)⟩
  all_goals exact ⟨.inl rfl, .inl rfl⟩

/-- Settles O52: `tick` is truncated subtraction of 1, and the other writers of a timer write a byte given or a register. -/
theorem timersTickAndFloorAtZero : Obligations.TimersTickAndFloorAtZero := by
  refine ⟨fun t => ?_, fun s => rfl, fun c => rfl, fun x s => ⟨_, exec_ldDtVx x s, rfl, rfl⟩, fun x s => ⟨_, rfl, rfl, rfl⟩,
    fun v s => ⟨rfl, rfl⟩, fun τ c d r => timers_of_transact⟩
  rw [toNat_tick]
  split
  · next h => rw [h]; rfl
  · rfl

/-! ### SET_KEY, the display ports and STATUS -/

/-- Settles O53: an index below 16 is its own nibble, and a wider one is refused. -/
theorem setKeyWritesOneKey : Obligations.SetKeyWritesOneKey := by
  refine ⟨fun c k b => ?_, fun c k b hk => if_neg (Nat.not_lt.2 hk)⟩
  have hnibble : (BitVec.ofNat 4 k.val).toNat = k.val := Nat.mod_eq_of_lt k.isLt
  rw [Session.transact, Session.setKey, if_pos k.isLt]
  simp only [State.setKey, hnibble]

/-- Settles O56: bit `64 y + x` is column `x` of row `y`. -/
theorem displayPortsReadAndClear : Obligations.DisplayPortsReadAndClear := by
  refine ⟨fun c => ⟨c.core.fbRead, rfl, fun x y => ?_⟩, fun c => rfl⟩
  have hx := x.isLt
  have hy := y.isLt
  have hlt : y.val * 64 + x.val < 2048 := by omega
  have hcol : (y.val * 64 + x.val) % 64 = x.val := by omega
  have hrow : (y.val * 64 + x.val) / 64 = y.val := by omega
  rw [Vector.getElem?_eq_getElem hlt]
  simp [State.fbRead, hcol, hrow]

/-- Settles O57: each of these ports is its operation on the core. -/
theorem timerAndStatusPorts : Obligations.TimerAndStatusPorts :=
  fun _ => ⟨rfl, rfl, fun _ => rfl, fun _ => rfl, rfl⟩

/-! ### LOAD -/

theorem transact_load_of_open {c : Session} (bytes : List Byte) (h : c.loadOpen = true) : c.transact (.load bytes) =
    if bytes.length ≤ 3584 then .next (⟨c.core.storeBytes 0x200 bytes, false⟩, .ok)
    else .next (⟨c.core, false⟩, .programTooLarge bytes.length) := by
  rw [Session.transact, Session.load, if_pos h, State.loadProgram_eq]
  by_cases hlen : bytes.length ≤ 3584
  · rw [if_pos hlen, if_pos hlen]
  · rw [if_neg hlen, if_neg hlen]

/-- Settles O54: the copy is a store of the buffer from 0x200 on, which ends at 4096 at the latest. -/
theorem loadCopiesUpToTheLimit : Obligations.LoadCopiesUpToTheLimit := by
  refine ⟨fun s bytes hwf hlen => ?_, fun s bytes hlen => ?_, fun s => ?_, fun c bytes hopen => ⟨fun hlen => ?_, fun hlen => ?_⟩⟩
  · have hread := Memory.read_writeBytes hwf (a := 0x200) (vs := bytes) (by omega)
    refine ⟨_, (State.loadProgram_eq s bytes).trans (if_pos hlen), rfl, fun k hk => ?_, fun a ha => ?_⟩
    · rw [State.storeBytes_mem, hread, if_pos (by omega), Nat.add_sub_cancel_left]
      exact List.getD_eq_getElem _ _ hk
    · rw [State.storeBytes_mem, hread, if_neg (by omega)]
  · exact (State.loadProgram_eq s bytes).trans (if_neg (Nat.not_le.2 hlen))
  · exact State.loadProgram_eq s []
  · exact ⟨_, (State.loadProgram_eq ..).trans (if_pos hlen), (transact_load_of_open bytes hopen).trans (if_pos hlen)⟩
  · exact (transact_load_of_open bytes hopen).trans (if_neg (Nat.not_le.2 hlen))

/-- STEP and LOAD close the session for LOAD, and no other transaction touches its bit. -/
theorem loadOpen_of_transact {τ : Transaction} {c d : Session} {r : Response} (h : c.transact τ = .next (d, r)) :
    d.loadOpen = true ↔ c.loadOpen = true ∧ τ ≠ .step ∧ ∀ b, τ ≠ .load b := by
  rcases Session.transact_cases h with ⟨rfl, hd, -⟩ | ⟨rfl, rfl, -⟩ | ⟨k, b, rfl, -, rfl, -⟩ | ⟨bytes, rfl, -, hd, -⟩ |
    ⟨rfl, rfl, -⟩ | ⟨v, rfl, rfl, -⟩ | ⟨v, rfl, rfl, -⟩ | ⟨rfl, ⟨rfl, -⟩ | ⟨rfl, -⟩ | ⟨rfl, -⟩ | ⟨rfl, -⟩⟩
  case inl | inr.inr.inr.inl => simp [hd]
  all_goals simp

/-- Settles O55: an open session answers LOAD either way, a closed one refuses it, and only STEP and LOAD close it. -/
theorem loadIsAdmittedOnce : Obligations.LoadIsAdmittedOnce := by
  refine ⟨fun c bytes hopen => ?_, fun c bytes hclosed => ?_, fun τ c d r => loadOpen_of_transact⟩
  · rw [transact_load_of_open bytes hopen]
    by_cases hlen : bytes.length ≤ 3584
    · exact ⟨_, _, if_pos hlen⟩
    · exact ⟨_, _, if_neg hlen⟩
  · rw [Session.transact, Session.load, hclosed]
    rfl

end Sys2Proof.Claims
end
